-- ==== Sys2Proof/Word.lean ====
section
/-! DEFINITION. The words of the hardware: bytes, cursors, port names and port command words. -/

namespace Sys2Proof

/-- One element of every address space (rule R6 `DW`, rule R62). -/
abbrev Byte := BitVec 8

/-- A FIFO cursor or its gray image (rule R20, rule R23). -/
abbrev Cursor := BitVec 7

/-- The two FIFO instances (rule R33). -/
inductive Inst where
  | rx
  | tx
  deriving DecidableEq, Repr

/-- The seven command ports of the whole hardware (rule R11, rule R90). -/
inductive Port where
  | w (F : Inst)
  | r (F : Inst)
  | c (F : Inst)
  | d
  deriving DecidableEq, Repr

/-- The command inputs of one port: format W (rule R93), R (rule R94), C (rule R95), D (rule R96). Each word has
exactly the width of its format, so no value outside a format can be presented (rule R99). -/
inductive PortWord where
  | w (F : Inst) (word : BitVec 9)
  | r (F : Inst) (word : BitVec 1)
  | c (F : Inst) (word : BitVec 1)
  | d (word : BitVec 2)
  deriving DecidableEq, Repr

/-- The two outcomes of the synchroniser's first-stage sample (rule R126, `draw=` of rule R103). -/
inductive Draw where
  | new
  | old
  deriving DecidableEq, Repr, Inhabited

/-- Why a bare number is no port word (the host's interface of Decode only; no port can carry such a value). -/
inductive WordReject where
  | wider        -- a bit at or above the stated length is set
  | noFormatW    -- longer than a byte and no 9-bit value
  | noFormatD    -- at most a byte and no 2-bit value
  | noFormat     -- longer than any format
  deriving DecidableEq, Repr

/-- The port a word is presented on. -/
def PortWord.port : PortWord → Port
  | .w F _ => .w F
  | .r F _ => .r F
  | .c F _ => .c F
  | .d _ => .d

/-- One line of a trace (rule R103): what one port presents at one edge, with the draw of that step if it is written. -/
structure Line where
  word : PortWord
  draw : Option Draw
  deriving DecidableEq, Repr

end Sys2Proof
end

