-- ==== Sys2Proof/Syntax.lean ====
section
/-! DEFINITION. The instructions: the ten port commands of rule R98, with the FIFO instance their port belongs to. -/

namespace Sys2Proof

/-- One constructor per row of the opcode table (rule R98). The instance is named by the port the command stands on;
the only operand in a command word is the byte of PUSH (rule R97). -/
inductive Instr where
  | push (F : Inst) (b : Byte)
  | wnop (F : Inst)
  | pop (F : Inst)
  | rnop (F : Inst)
  | clear (F : Inst)
  | cnop (F : Inst)
  | dnop
  | tick
  | advance
  | tickAdvance
  deriving DecidableEq, Repr

/-- The port whose format an instruction belongs to (rule R98, column "format"). -/
def Instr.port : Instr → Port
  | .push F _ => .w F
  | .wnop F => .w F
  | .pop F => .r F
  | .rnop F => .r F
  | .clear F => .c F
  | .cnop F => .c F
  | .dnop => .d
  | .tick => .d
  | .advance => .d
  | .tickAdvance => .d

end Sys2Proof
end

