-- ==== Sys2Proof/Syntax/Trace.lean ====
section
/-! DEFINITION. The trace syntax of rule R103 as data, with the pseudo-instructions of rule R104. -/

namespace Sys2Proof

/-- A line of a written trace: a command on a port, or a pseudo-instruction of rule R104. -/
inductive TraceLine where
  | cmd (port : Port) (op : Instr) (draw : Option Draw)
  | widle (F : Inst) (n : Nat)
  | ridle (F : Inst) (n : Nat)
  | didle (n : Nat)
  | ticks (n : Nat)
  | advances (n : Nat)
  | settle (F : Inst)
  | pushs (F : Inst) (text : List Byte)
  deriving DecidableEq, Repr

end Sys2Proof
end

