-- ==== Sys2Proof/WellFormed.lean ====
section
/-! DEFINITION. Which instructions and trace lines are well formed. -/

namespace Sys2Proof

/-- Every instruction is well formed: the one operand is a byte and every byte is a `w_data` (rule R97), and there is
no reserved encoding an instruction could stand for (rule R99). -/
def Instr.wellFormed : Instr → Bool
  | .push _ _ => true
  | .wnop _ => true
  | .pop _ => true
  | .rnop _ => true
  | .clear _ => true
  | .cnop _ => true
  | .dnop => true
  | .tick => true
  | .advance => true
  | .tickAdvance => true

/-- A trace line is well formed when its operation belongs to the port it is written on (rule R98: the port prefix says
which instance, the format which commands). A pseudo-instruction names its port itself (rule R104). -/
def TraceLine.wellFormed : TraceLine → Bool
  | .cmd port op _ => op.wellFormed && decide (op.port = port)
  | .widle _ _ => true
  | .ridle _ _ => true
  | .didle _ => true
  | .ticks _ => true
  | .advances _ => true
  | .settle _ => true
  | .pushs _ _ => true

end Sys2Proof
end

