-- ==== Sys2Proof/Decode.lean ====
section
/-! DEFINITION. Decoding a port's command word (rules R93 to R99), encoding, and the expansions of rule R104. -/

namespace Sys2Proof

/-- `w_en`, bit 8 of format W (rule R93). -/
def wEn (word : BitVec 9) : Bool := word.getLsbD 8

/-- `w_data`, bits 7:0 of format W, taken as it stands (rules R93, R97). -/
def wData (word : BitVec 9) : Byte := word.extractLsb' 0 8

/-- `adv`, bit 1 of format D (rule R96). -/
def advBit (word : BitVec 2) : Bool := word.getLsbD 1

/-- `tick`, bit 0 of format D (rule R96). -/
def tickBit (word : BitVec 2) : Bool := word.getLsbD 0

/-- Format W: bit 8 decides (rule R99). WNOP ignores `w_data` (rule R101). -/
def decodeW (F : Inst) (word : BitVec 9) : Instr :=
  if wEn word then .push F (wData word) else .wnop F

/-- Format R: `r_en`, its one bit, decides (rules R94, R99). -/
def decodeR (F : Inst) (word : BitVec 1) : Instr :=
  if word.getLsbD 0 then .pop F else .rnop F

/-- Format C: `clr`, its one bit, decides (rules R95, R99). -/
def decodeC (F : Inst) (word : BitVec 1) : Instr :=
  if word.getLsbD 0 then .clear F else .cnop F

/-- Format D: both bits decide (rules R96, R99, R170). -/
def decodeD (word : BitVec 2) : Instr :=
  match advBit word, tickBit word with
  | false, false => .dnop
  | false, true => .tick
  | true, false => .advance
  | true, true => .tickAdvance

/-- The decoder of the four formats; total, and it refuses nothing (rule R99). -/
def decode : PortWord → Instr
  | .w F word => decodeW F word
  | .r F word => decodeR F word
  | .c F word => decodeC F word
  | .d word => decodeD word

/-- The word of each instruction (rule R98, column "encoding"). The ignored bits of WNOP are 0 (log entry 33). -/
def encode : Instr → PortWord
  | .push F b => .w F (1#1 ++ b)
  | .wnop F => .w F 0x000#9
  | .pop F => .r F 1#1
  | .rnop F => .r F 0#1
  | .clear F => .c F 1#1
  | .cnop F => .c F 0#1
  | .dnop => .d 0b00#2
  | .tick => .d 0b01#2
  | .advance => .d 0b10#2
  | .tickAdvance => .d 0b11#2

/-- The four command formats (rules R93 to R96). -/
inductive Format where
  | w
  | r
  | c
  | d
  deriving DecidableEq, Repr

/-- A row of the opcode map (rule R98). -/
structure OpcodeRow where
  mnemonic : String
  format   : Format
  value    : Nat
  mask     : Nat
  deriving DecidableEq, Repr

/-- The opcode map, columns "mnemonic", "format", "match" and "mask" (rule R98). -/
def opcodeMap : List OpcodeRow := [
  ⟨"PUSH", .w, 0x100, 0x100⟩,
  ⟨"WNOP", .w, 0x000, 0x100⟩,
  ⟨"POP", .r, 0x1, 0x1⟩,
  ⟨"RNOP", .r, 0x0, 0x1⟩,
  ⟨"CLEAR", .c, 0x1, 0x1⟩,
  ⟨"CNOP", .c, 0x0, 0x1⟩,
  ⟨"DNOP", .d, 0x0, 0x3⟩,
  ⟨"TICK", .d, 0x1, 0x3⟩,
  ⟨"ADVANCE", .d, 0x2, 0x3⟩,
  ⟨"TICK_ADVANCE", .d, 0x3, 0x3⟩]

/-- The mnemonic of an instruction's row (rule R98). -/
def Instr.mnemonic : Instr → String
  | .push _ _ => "PUSH"
  | .wnop _ => "WNOP"
  | .pop _ => "POP"
  | .rnop _ => "RNOP"
  | .clear _ => "CLEAR"
  | .cnop _ => "CNOP"
  | .dnop => "DNOP"
  | .tick => "TICK"
  | .advance => "ADVANCE"
  | .tickAdvance => "TICK_ADVANCE"

/-- Whether a word is one of a row's words: the row's format, and the masked bits are the match (rule R98). -/
def OpcodeRow.covers (row : OpcodeRow) : PortWord → Bool
  | .w _ word => decide (row.format = .w) && decide (word.toNat &&& row.mask = row.value)
  | .r _ word => decide (row.format = .r) && decide (word.toNat &&& row.mask = row.value)
  | .c _ word => decide (row.format = .c) && decide (word.toNat &&& row.mask = row.value)
  | .d word => decide (row.format = .d) && decide (word.toNat &&& row.mask = row.value)

/-- The port word a bare number of `nbits` bits stands for. A command word of this hardware has a meaning only on its
port (rule R90), and the words of formats R, C and D are the same small numbers. DESIGN CHOICE (log entry 1): more than
8 bits is format W of RX, exactly one bit is format R of RX, otherwise it is format D. -/
def tablePortWord (nbits w : Nat) : Except WordReject PortWord :=
  if 2 ^ nbits ≤ w then .error .wider
  else if 16 < nbits then .error .noFormat
  else if 8 < nbits then
    if w < 512 then .ok (.w .rx (BitVec.ofNat 9 w)) else .error .noFormatW
  else if nbits = 1 then .ok (.r .rx (BitVec.ofNat 1 w))
  else if w < 4 then .ok (.d (BitVec.ofNat 2 w)) else .error .noFormatD

/-- The instruction the decoder reads from a bare number of `nbits` bits (log entry 1). -/
def decodeTableWord (nbits w : Nat) : Option Instr :=
  match tablePortWord nbits w with
  | .ok word => some (decode word)
  | .error _ => none

/-- A line that presents an instruction on its own port. -/
def lineOf (i : Instr) (draw : Option Draw) : Line := { word := encode i, draw := draw }

/-- The lines a well-formed trace line stands for, with S synchroniser stages (rules R103, R104). -/
def assemble (stages : Nat) (l : TraceLine) : List Line :=
  match l with
  | .cmd _ op draw => if l.wellFormed then [lineOf op draw] else []
  | .widle F n => List.replicate n (lineOf (.wnop F) none)
  | .ridle F n => List.replicate n (lineOf (.rnop F) none)
  | .didle n => List.replicate n (lineOf .dnop none)
  | .ticks n => List.replicate n (lineOf .tick none)
  | .advances n => List.replicate n (lineOf .advance none)
  | .settle F =>
    List.replicate (stages + 1) (lineOf (.rnop F) none) ++ List.replicate (stages + 1) (lineOf (.wnop F) none)
  | .pushs F text => text.map fun b => lineOf (.push F b) none

end Sys2Proof
end

