-- ==== Sys2Proof/Config.lean ====
section
/-! DEFINITION. What an implementation fixes (rules R6, R7) and the free values. -/

namespace Sys2Proof

/-- When `send` kicks the transmitter (rule R203). -/
inductive KickPolicy where
  | afterEachByte
  | afterAllBytes
  deriving DecidableEq, Repr, Inhabited

namespace Config

/-- Slots of one FIFO instance (rule R6 `CAPACITY`). -/
def capacity : Nat := 128

/-- The number of synchroniser stages of this hardware (rule R7 `SYNC_STAGES`, decision D2). Only the state after reset
uses it: every meaning takes S from the length of the state's synchronisers (log entry 5). -/
def syncStages : Nat := 2

/-- `GLYPH_ROM`: rule R43 gives its shape and no byte of it (rule R7 OPEN). DESIGN CHOICE (log entry 19): a constant
without a value. Safe. -/
opaque glyphRom : Fin 11 → Fin 8 → Byte

/-- The draw of rule R126 where the trace line names none; the argument is the state's draw counter. DESIGN CHOICE
(log entry 4): a constant without a value. Safe. -/
opaque freeDraw : Nat → Draw

/-- The value on `r_data` while `empty = 1` (rule R123, U2). DESIGN CHOICE (log entry 7): a constant without a value.
Safe. -/
opaque freeByte : Inst → Nat → Byte

/-- `KICK_POLICY` (rule R7 OPEN, rule R203). DESIGN CHOICE (log entry 18): a constant without a value. Safe. -/
opaque kickPolicy : KickPolicy

end Config

end Sys2Proof
end

