-- ==== Sys2Proof/Machine/State.lean ====
section
/-! DEFINITION. The state of the hardware and of the agents around it, its reset, and the reasons a step can stop. -/

namespace Sys2Proof.Machine

/-- The storage of one FIFO instance, `F.mem` of rule R24: the slots that hold a value, by index. A slot that is not
listed holds no value (rule R31, U1; log entry 6). -/
abbrev Memory := List Host.Cell

/-- Slot indices strictly rise from a lower bound, and each is an index of `F.mem` (rule R60: 0..127). -/
def Memory.wfFrom : Nat → Memory → Bool
  | _, [] => true
  | lo, (a, _) :: m => decide (lo ≤ a) && decide (a < Config.capacity) && Memory.wfFrom (a + 1) m

/-- The canonical form of a storage: strictly rising indices below 128, so equal storages are equal lists. No entry can
equal what an unlisted slot reads as, since that is no value. -/
def Memory.wf (m : Memory) : Bool := Memory.wfFrom 0 m

/-- One FIFO instance (rules R24, R25, R26), the clear pin's level and the quiet window after a CLEAR (rules R95, R276), and
the model's records of what went in and came out (rules R123, R140, R143). S is the length of the two synchronisers; the
first list entry is stage 1. -/
structure Fifo where
  mem        : Memory
  wptr       : Cursor
  wgray      : Cursor
  rsync      : List Cursor
  rptr       : Cursor
  rgray      : Cursor
  wsync      : List Cursor
  wgrayPrev  : Cursor
  wFresh     : Bool
  rgrayPrev  : Cursor
  rFresh     : Bool
  clr        : Bool
  wHold      : Nat
  rHold      : Nat
  result     : Option Byte
  pushed     : List Byte
  delivered  : List Byte
  deriving DecidableEq, Repr

/-- The display block (rules R40, R41, R42); `glyph` and `color` have their bounded types (rule R40, decision D29). -/
structure Display where
  glyph : Fin 11
  color : Fin 3
  col   : BitVec 3
  mask  : BitVec 8
  sel   : Byte
  red   : Byte
  grn   : Byte
  deriving DecidableEq, Repr

/-- A ghost event of the model's history (rule R9, rules R241 to R244, decision D31). -/
inductive Ghost where
  | overflow (F : Inst) (b : Byte)
  | underflow (F : Inst)
  | cleared (F : Inst) (n : Nat)
  | lineError
  deriving DecidableEq, Repr

/-- The abstract UART (rule R200). -/
structure Uart where
  ready     : Bool
  rxFifo    : List Byte
  txIdle    : Bool
  txOut     : List Byte
  lineError : Bool
  thrArmed  : Bool
  deriving DecidableEq, Repr

/-- What a sequence of the Byte Transport returns (rules R203, R205, R207). -/
inductive Ret where
  | count (n : Nat)
  | bytes (bs : List Byte)
  | pending (yes : Bool)
  deriving DecidableEq, Repr

/-- A part of a sequence still to be run; one step of it makes at most one FIFO step (rules R66, R212). -/
inductive Task where
  | drain                                     -- the loop of rule R202
  | copy (cap : Nat) (got : List Byte)        -- the loop of rule R205
  | clearRx                                   -- CLEAR of rule R206
  | discardRx                                 -- rx_read, byte discarded (rules R206, R211)
  | pollPending                               -- rule R207
  | send (k : KickPolicy) (rest : List Byte)  -- the loop of rule R203
  | kick                                      -- rule R204, the first attempt
  | rekick                                    -- rule R204, repeated until it succeeds
  | pump                                      -- the loop of rule R210
  | lsrRead                                   -- rule R211
  | advance                                   -- the mainline's ADVANCE (rule R216)
  | done (r : Ret)                            -- the sequence returns
  deriving DecidableEq, Repr

/-- Who runs a sequence (rule R201, rule R253): the mainline, the agent that repeats its kick (rule R204), and the
handlers. -/
inductive Agent where
  | main
  | kicker
  | rda
  | thre
  | err
  deriving DecidableEq, Repr

/-- The interrupts of rule R247. -/
inductive Irq where
  | timer
  | rda
  | thre
  | err
  deriving DecidableEq, Repr

/-- What the mainline may start (rule R216, file 42; `kick` alone is one more attempt, log entry 32). -/
inductive Call where
  | send (bs : List Byte)
  | printLine (text : List Byte)
  | receive (cap : Nat)
  | clearReceive
  | hasPending
  | kick
  | advance
  deriving DecidableEq, Repr

/-- What the UART does by itself (rule R200). -/
inductive UartEvent where
  | configure
  | arrive (b : Byte)
  | idle (yes : Bool)
  | lineError
  deriving DecidableEq, Repr

/-- One thing the environment presents to the machine (rules R10, R90, R95, R102, R200, R247, R270). -/
inductive Input where
  | line (l : Line)
  | together (ls : List Line)
  | clr (F : Inst) (level : Bool)
  | rst (level : Bool)
  | uart (e : UartEvent)
  | irq (q : Irq)
  | call (c : Call)
  | run (a : Agent) (draw : Option Draw)
  deriving DecidableEq, Repr

/-- The whole machine: two FIFO instances, the display, the reset pin, and around them the environment the spec gives
(files 42 and 60). -/
structure State where
  rx        : Fifo
  tx        : Fifo
  disp      : Display
  rst       : Bool
  history   : List Ghost
  inputs    : List Input
  lineDraw  : Option Draw
  drawCount : Nat
  uart      : Uart
  main      : List Task
  kicker    : List Task
  rda       : List Task
  thre      : List Task
  err       : List Task
  returned  : Option Ret
  deriving DecidableEq, Repr

/-- No step of this hardware faults: "Neither block can trap, fault, halt or signal an error" (rule R240), so there is
no constructor. Safe: nothing stops here. -/
inductive Fault where
  deriving DecidableEq, Repr

/-- Why a step gives no meaning. -/
inductive Refusal where
  /-- Raised by `exec` for an instruction without a meaning. Safe. None of the arms raises it. -/
  | notModelled (mnemonic : String)
  /-- Raised by an operating command, or a rise of `clr`, while `rst` is asserted, and by a rise of `rst` while a `clr`
  is 1 (rule R272, U5). Safe. -/
  | commandDuringReset
  /-- Raised by PUSH and POP while `F.clr = 1` or in the quiet window after it fell or after a CLEAR command (rules R102,
  R276, R246(a), U4), and by RDA while the window of RX is open (rule R276). Safe. -/
  | clearWindow (F : Inst)
  /-- Raised by a PUSH or POP presented at one instant with CLEAR of the same instance, by `clear_receive` while the RDA
  drain runs, and by a CLEAR line or a rise of `clr` while a sequence drives the instance (rules R102, R206, R276,
  R246(a)). Safe. -/
  | clearOverlap (F : Inst)
  /-- Raised where two agents drive one port at once: two lines at one instant, a line on a port that a running sequence
  drives, a step of the mainline on a handler's port, `clear_receive` while the clear pin of RX is held at 1 (rules R201,
  R275, R246(b), U8). Safe. -/
  | twoDrivers (p : Port)
  /-- Raised by POP with `empty = 0` whose slot holds no value (rule R31, U1); unreachable (rule R140). Safe. -/
  | unwrittenSlot (F : Inst)
  /-- Raised by a sequence started before the UART is configured (rule R273, R246(d)). Safe. -/
  | notInitialised
  deriving DecidableEq, Repr

/-- One FIFO instance after reset with `stages` synchroniser stages (rules R31, R46). -/
def Fifo.reset (stages : Nat) : Fifo where
  mem := []
  wptr := 0#7
  wgray := 0#7
  rsync := List.replicate stages 0#7
  rptr := 0#7
  rgray := 0#7
  wsync := List.replicate stages 0#7
  wgrayPrev := 0#7
  wFresh := false
  rgrayPrev := 0#7
  rFresh := false
  clr := false
  wHold := 0
  rHold := 0
  result := none
  pushed := []
  delivered := []

/-- The display after reset (rules R40, R41, R42, R46). -/
def Display.reset : Display where
  glyph := 0
  color := 0
  col := 0#3
  mask := 0x01#8
  sel := 0x00#8
  red := 0x00#8
  grn := 0x00#8

/-- The UART before it is configured (rule R273; the values are log entries 20 and 21). -/
def Uart.reset : Uart where
  ready := false
  rxFifo := []
  txIdle := false
  txOut := []
  lineError := false
  thrArmed := true

/-- The machine right after the release of reset, with `stages` synchroniser stages in each instance (rules R46, R270 to
R272). `stages = 0` is the document's software semantics (rule R7). -/
def State.resetWith (stages : Nat) : State where
  rx := Fifo.reset stages
  tx := Fifo.reset stages
  disp := Display.reset
  rst := false
  history := []
  inputs := []
  lineDraw := none
  drawCount := 0
  uart := Uart.reset
  main := []
  kicker := []
  rda := []
  thre := []
  err := []
  returned := none

/-- The machine right after reset: S = 2 (rule R7, decision D2). -/
def State.reset : State := State.resetWith Config.syncStages

end Sys2Proof.Machine
end

