-- ==== Sys2Proof/Machine/Operands.lean ====
section
/-! DEFINITION. The gray code, cursor arithmetic and the indices commands use (rules R23, R60, R97, R130). -/

namespace Sys2Proof.Machine

/-- The gray image of a cursor (rule R23). -/
def gray (b : Cursor) : Cursor := b ^^^ (b >>> 1)

/-- The cursor of a gray image: bit i is the exclusive-or of bits i to 6 (the recurrence of rule R23 unrolled). -/
def ungray (g : Cursor) : Cursor :=
  g ^^^ (g >>> 1) ^^^ (g >>> 2) ^^^ (g >>> 3) ^^^ (g >>> 4) ^^^ (g >>> 5) ^^^ (g >>> 6)

/-- `(c + 1) mod 128`: seven bits, the carry dropped (rules R20, R130). -/
def nextCursor (c : Cursor) : Cursor := c + 1#7

/-- The slot the next PUSH writes (rule R24). -/
def Fifo.writeIndex (f : Fifo) : Nat := f.wptr.toNat

/-- The slot the next POP reads (rule R25). -/
def Fifo.readIndex (f : Fifo) : Nat := f.rptr.toNat

/-- The column index of the next TICK as an index of `GLYPH_ROM` (rules R41, R43). -/
def Display.column (d : Display) : Fin 8 := d.col.toFin

end Sys2Proof.Machine
end

