-- ==== Sys2Proof/Machine/Flags.lean ====
section
/-! DEFINITION. Every derived value of a FIFO instance: seen cursors, `empty`, `full` and occupancies (rule R27). -/

namespace Sys2Proof.Machine

/-- The write cursor as domain R sees it, gray (rule R27): the last stage, or `wgray` itself when S = 0. -/
def Fifo.wseen (f : Fifo) : Cursor := f.wsync.getLastD f.wgray

/-- The read cursor as domain W sees it, gray (rule R27): the last stage, or `rgray` itself when S = 0. -/
def Fifo.rseen (f : Fifo) : Cursor := f.rsync.getLastD f.rgray

/-- The flag `empty` (rules R27, R28). -/
def Fifo.empty (f : Fifo) : Bool := decide (f.rgray = f.wseen)

/-- The flag `full` (rules R27, R29). -/
def Fifo.full (f : Fifo) : Bool := decide (gray (nextCursor f.wptr) = f.rseen)

/-- `occ_true`: the bytes actually held (rule R27). -/
def Fifo.occTrue (f : Fifo) : Nat := (f.wptr - f.rptr).toNat

/-- `occ_w`: the occupancy as domain W believes (rule R27). -/
def Fifo.occW (f : Fifo) : Nat := (f.wptr - ungray f.rseen).toNat

/-- `occ_r`: the occupancy as domain R believes (rule R27). -/
def Fifo.occR (f : Fifo) : Nat := (ungray f.wseen - f.rptr).toNat

end Sys2Proof.Machine
end

