-- ==== Sys2Proof/Machine/Ops.lean ====
section
/-! DEFINITION. The operations every meaning is built from: storage, the synchronisers' bookkeeping, the parts of the
commands, clearing and reset. There is no operation that takes an exception and none that returns from one: no command
of this hardware traps (rule R240). -/

namespace Sys2Proof.Machine

/-- `MemRead(F.mem, i, 1)` (rule R9): the byte of slot `i`, or none if nothing has written it (rule R31). -/
def memRead : Memory → Nat → Option Byte
  | [], _ => none
  | (a, b) :: m, i => if a = i then some b else memRead m i

/-- `MemWrite(F.mem, i, 1, v)` (rule R9), keeping the canonical form. -/
def memWrite : Memory → Nat → Byte → Memory
  | [], i, v => [(i, v)]
  | (a, b) :: m, i, v =>
    if i < a then (i, v) :: (a, b) :: m
    else if i = a then (i, v) :: m
    else (a, b) :: memWrite m i v

/-- One instance of the two (rule R33). -/
def State.fifo (s : State) : Inst → Fifo
  | .rx => s.rx
  | .tx => s.tx

/-- Replaces one instance. -/
def State.setFifo (s : State) (F : Inst) (f : Fifo) : State :=
  match F with
  | .rx => { s with rx := f }
  | .tx => { s with tx := f }

/-- Replaces what the environment presents next. -/
def State.setInputs (s : State) (is : List Input) : State := { s with inputs := is }

/-- Sets the draw written on the line being run. -/
def State.setLineDraw (s : State) (d : Option Draw) : State := { s with lineDraw := d }

/-- Replaces the display. -/
def State.setDisp (s : State) (d : Display) : State := { s with disp := d }

/-- Sets the level of the reset pin. -/
def State.setRstPin (s : State) (level : Bool) : State := { s with rst := level }

/-- Appends a ghost event to the model's history (rule R9 `event`). -/
def State.record (s : State) (e : Ghost) : State := { s with history := s.history ++ [e] }

/-- The draw of this step (rule R126): the line's own, else the free value (log entry 4). -/
def State.draw (s : State) : Draw := s.lineDraw.getD (Config.freeDraw s.drawCount)

/-- What a first stage captures of a source register that is now `cur` and was `prev` before its most recent edge
(rule R126). -/
def sample (fresh : Bool) (cur prev : Cursor) (d : Draw) : Cursor :=
  if fresh then
    match d with
    | .new => cur
    | .old => prev
  else cur

/-- One shift of a synchroniser: stage 1 takes the sample, each later stage the one before it (rules R128, R129). With
no stages there is no sample to take. -/
def shiftIn (stages : List Cursor) (x : Cursor) : List Cursor := (x :: stages).dropLast

/-- The write-side bookkeeping of rule R128 on `post`, with every right-hand side read from `pre`; one `wclk` edge of
the quiet window passes (rule R276). -/
def Fifo.bookW (pre : Fifo) (d : Draw) (post : Fifo) : Fifo :=
  { post with
    rsync := shiftIn pre.rsync (sample pre.rFresh pre.rgray pre.rgrayPrev d)
    rFresh := false
    wgrayPrev := pre.wgray
    wFresh := true
    wHold := pre.wHold - 1 }

/-- The read-side bookkeeping of rule R129 on `post`, with every right-hand side read from `pre`; one `rclk` edge of the
quiet window passes (rule R276). -/
def Fifo.bookR (pre : Fifo) (d : Draw) (post : Fifo) : Fifo :=
  { post with
    wsync := shiftIn pre.wsync (sample pre.wFresh pre.wgray pre.wgrayPrev d)
    wFresh := false
    rgrayPrev := pre.rgray
    rFresh := true
    rHold := pre.rHold - 1 }

/-- The effective part of PUSH (rule R121): the byte, the cursor and its gray image, from pre-step values. -/
def Fifo.store (f : Fifo) (b : Byte) : Fifo :=
  { f with
    mem := memWrite f.mem f.writeIndex b
    wptr := nextCursor f.wptr
    wgray := gray (nextCursor f.wptr)
    pushed := f.pushed ++ [b] }

/-- The effective part of POP (rule R123), delivering `b`. -/
def Fifo.take (f : Fifo) (b : Byte) : Fifo :=
  { f with
    rptr := nextCursor f.rptr
    rgray := gray (nextCursor f.rptr)
    result := some b
    delivered := f.delivered ++ [b] }

/-- The ineffective POP delivers nothing (rule R123). -/
def Fifo.deliverNone (f : Fifo) : Fifo := { f with result := none }

/-- The parameter S of an instance (rule R7); no register's contents. DEDUCED: it is the number of stages of its
synchronisers (log entry 5). -/
abbrev Fifo.stages (f : Fifo) : Nat := f.wsync.length

/-- The register part of CLEAR (rule R125); storage is unchanged, and the records of "since the last CLEAR" begin anew.
The CLEAR is one whole period of `clr`, so the quiet window of S + 1 edges of each clock begins after it (rule R276, U4,
decision D10; log entry 10). -/
def Fifo.cleared (f : Fifo) : Fifo :=
  { f with
    wptr := 0#7
    wgray := 0#7
    rptr := 0#7
    rgray := 0#7
    wsync := List.replicate f.wsync.length 0#7
    rsync := List.replicate f.rsync.length 0#7
    wgrayPrev := 0#7
    rgrayPrev := 0#7
    wFresh := false
    rFresh := false
    wHold := f.stages + 1
    rHold := f.stages + 1
    pushed := []
    delivered := [] }

/-- The clear pin is high. -/
def Fifo.raiseClr (f : Fifo) : Fifo := { f with clr := true }

/-- The clear pin falls: the quiet window of S + 1 edges of each clock begins (rule R276). -/
def Fifo.lowerClr (f : Fifo) : Fifo :=
  { f with clr := false, wHold := f.stages + 1, rHold := f.stages + 1 }

/-- PUSH and POP are refused: `clr` is 1, or fewer than S + 1 edges of each clock have passed since it fell or since a
CLEAR command (rules R102, R276, U4). -/
def Fifo.inClearWindow (f : Fifo) : Bool := f.clr || decide (f.wHold ≠ 0) || decide (f.rHold ≠ 0)

/-- A `WEDGE` of `F` whose command part leaves the instance as `post` (rule R120): the bookkeeping is added, and the
free values move on by one. -/
def State.edgeW (s : State) (F : Inst) (post : Fifo) : State :=
  { s.setFifo F ((s.fifo F).bookW s.draw post) with drawCount := s.drawCount + 1 }

/-- A `REDGE` of `F` whose command part leaves the instance as `post` (rule R120). -/
def State.edgeR (s : State) (F : Inst) (post : Fifo) : State :=
  { s.setFifo F ((s.fifo F).bookR s.draw post) with drawCount := s.drawCount + 1 }

/-- `CLEAR(F)` with its ghost event (rule R125). -/
def State.clearFifo (s : State) (F : Inst) : State :=
  (s.setFifo F (s.fifo F).cleared).record (.cleared F (s.fifo F).occTrue)

/-- The render step of rule R171 with the palette of rule R172, over a `GLYPH_ROM`. -/
def Display.tick (rom : Fin 11 → Fin 8 → Byte) (d : Display) : Display :=
  let b := rom d.glyph d.column
  { d with
    sel := d.mask
    red := if d.color = 0 ∨ d.color = 2 then b else 0x00#8
    grn := if d.color = 1 ∨ d.color = 2 then b else 0x00#8
    col := if d.col = 7#3 then 0#3 else d.col + 1#3
    mask := if d.col = 7#3 then 0x01#8 else d.mask <<< 1 }

/-- The coarse cursor advance of rule R173; adding in `Fin 3` is `(color + 1) mod 3`. -/
def Display.advance (d : Display) : Display :=
  if d.glyph = 10 then { d with glyph := 0, color := d.color + 1 }
  else { d with glyph := d.glyph + 1 }

/-- Both at one edge (rule R174): every register the two parts write, each from the values before the edge. -/
def Display.tickAdvance (rom : Fin 11 → Fin 8 → Byte) (d : Display) : Display :=
  { d.tick rom with glyph := d.advance.glyph, color := d.advance.color }

/-- Every register of both blocks at its reset value (rule R270), S unchanged. DESIGN CHOICE: a reset inside a quiet
window ends it (log entry 36); the agents and the UART start anew with the system (log entry 13); the history, the inputs
and the draw counter belong to the run and stay (log entry 9). -/
def State.hardReset (s : State) : State :=
  { s with
    rx := Fifo.reset s.rx.wsync.length
    tx := Fifo.reset s.tx.wsync.length
    disp := Display.reset
    uart := Uart.reset
    main := []
    kicker := []
    rda := []
    thre := []
    err := []
    returned := none }

/-- Goes on with the state of an outcome that has one; a fault or a refusal stays what it is. -/
def onNext {α β : Type} (o : Host.Outcome α Fault Refusal) (f : α → Host.Outcome β Fault Refusal) :
    Host.Outcome β Fault Refusal :=
  match o with
  | .next a => f a
  | .fault r => .fault r
  | .refused r => .refused r

end Sys2Proof.Machine
end

