-- ==== Sys2Proof/Machine/ClearPort.lean ====
section
/-! DEFINITION. The commands of the clear port: CLEAR and CNOP. -/

namespace Sys2Proof.Machine

/-- CLEAR (rule R125): one atomic step of no domain, after which the quiet window of rule R276 is open (log entry 10).
Refused during reset (R272, U5). DESIGN CHOICE (log entry 35): a CLEAR line presented while the clear pin is 1 already is
one more step, with its own event; rule R95 gives one CLEAR per period of the pin and does not speak of that mix. -/
def execClear (F : Inst) (s : State) : Host.Outcome State Fault Refusal :=
  if s.rst then .refused .commandDuringReset else .next (s.clearFifo F)

/-- CNOP (rule R127): no step happens and no state changes. -/
def execCnop (_F : Inst) (s : State) : Host.Outcome State Fault Refusal := .next s

end Sys2Proof.Machine
end

