-- ==== Sys2Proof/Machine/DisplayPort.lean ====
section
/-! DEFINITION. The commands of the display port: DNOP, TICK, ADVANCE and TICK_ADVANCE (rule R170). -/

namespace Sys2Proof.Machine

/-- DNOP (rule R175): no register changes. -/
def execDnop (s : State) : Host.Outcome State Fault Refusal := .next s

/-- TICK (rules R171, R172). Refused during reset (R272, U5). -/
def execTick (s : State) : Host.Outcome State Fault Refusal :=
  if s.rst then .refused .commandDuringReset else .next (s.setDisp (s.disp.tick Config.glyphRom))

/-- ADVANCE (rule R173). Refused during reset (R272, U5). -/
def execAdvance (s : State) : Host.Outcome State Fault Refusal :=
  if s.rst then .refused .commandDuringReset else .next (s.setDisp s.disp.advance)

/-- TICK_ADVANCE (rule R174). Refused during reset (R272, U5). -/
def execTickAdvance (s : State) : Host.Outcome State Fault Refusal :=
  if s.rst then .refused .commandDuringReset else .next (s.setDisp (s.disp.tickAdvance Config.glyphRom))

end Sys2Proof.Machine
end

