-- ==== Sys2Proof/Machine/ReadPort.lean ====
section
/-! DEFINITION. The commands of the read port: POP and RNOP. -/

namespace Sys2Proof.Machine

/-- POP (rules R123, R120, R129). Ineffective while `empty = 1`: nothing is delivered and the event recorded (rules
R100, R242). A slot that nothing has written is refused (U1). Refused during reset (R272, U5) and in the clear window
(R102, R276, U4). -/
def execPop (F : Inst) (s : State) : Host.Outcome State Fault Refusal :=
  if s.rst then .refused .commandDuringReset
  else if (s.fifo F).inClearWindow then .refused (.clearWindow F)
  else if (s.fifo F).empty then .next ((s.edgeR F (s.fifo F).deliverNone).record (.underflow F))
  else
    match memRead (s.fifo F).mem (s.fifo F).readIndex with
    | some b => .next (s.edgeR F ((s.fifo F).take b))
    | none => .refused (.unwrittenSlot F)

/-- RNOP (rules R124, R129): the bookkeeping alone. While `rst` is asserted the registers hold (rule R272, log entry
12). -/
def execRnop (F : Inst) (s : State) : Host.Outcome State Fault Refusal :=
  if s.rst then .next s else .next (s.edgeR F (s.fifo F))

end Sys2Proof.Machine
end

