-- ==== Sys2Proof/Machine/WritePort.lean ====
section
/-! DEFINITION. The commands of the write port: PUSH and WNOP. -/

namespace Sys2Proof.Machine

/-- PUSH b (rules R121, R120, R128). Ineffective while `full = 1`: the byte is dropped and the event recorded (rules
R100, R241). Refused where the spec refuses it: during reset (R272, U5) and in the clear window (R102, R276, U4). -/
def execPush (F : Inst) (b : Byte) (s : State) : Host.Outcome State Fault Refusal :=
  if s.rst then .refused .commandDuringReset
  else if (s.fifo F).inClearWindow then .refused (.clearWindow F)
  else if (s.fifo F).full then .next ((s.edgeW F (s.fifo F)).record (.overflow F b))
  else .next (s.edgeW F ((s.fifo F).store b))

/-- WNOP (rules R122, R128): the bookkeeping alone. While `rst` is asserted the registers hold (rule R272, log entry
12). -/
def execWnop (F : Inst) (s : State) : Host.Outcome State Fault Refusal :=
  if s.rst then .next s else .next (s.edgeW F (s.fifo F))

end Sys2Proof.Machine
end

