-- ==== Sys2Proof/Machine/Dispatch.lean ====
section
/-! DEFINITION. The meaning of every instruction, one arm per constructor. -/

namespace Sys2Proof.Machine

def exec (i : Instr) (s : State) : Host.Outcome State Fault Refusal :=
  match i with
  | .push F b => Sys2Proof.Machine.execPush F b s
  | .wnop F => Sys2Proof.Machine.execWnop F s
  | .pop F => Sys2Proof.Machine.execPop F s
  | .rnop F => Sys2Proof.Machine.execRnop F s
  | .clear F => Sys2Proof.Machine.execClear F s
  | .cnop F => Sys2Proof.Machine.execCnop F s
  | .dnop => Sys2Proof.Machine.execDnop s
  | .tick => Sys2Proof.Machine.execTick s
  | .advance => Sys2Proof.Machine.execAdvance s
  | .tickAdvance => Sys2Proof.Machine.execTickAdvance s

end Sys2Proof.Machine
end

