-- ==== Sys2Proof/Machine/Transport.lean ====
section
/-! DEFINITION. The Byte Transport's sequences over the FIFO ports (file 42), as parts that each make at most one FIFO
step, so that any other agent's step may fall between two of them (rules R66, R212). -/

namespace Sys2Proof.Machine

/-- Replaces the UART. -/
def State.setUart (s : State) (u : Uart) : State := { s with uart := u }

/-- `rx_ready`: the hardware receive FIFO holds at least one byte (rule R200). -/
def Uart.rxReady (u : Uart) : Bool := !u.rxFifo.isEmpty

/-- `rx_read()` with the byte discarded (rules R200, R206, R211); with no byte there nothing is taken (log entry 27). -/
def Uart.dropRx (u : Uart) : Uart := { u with rxFifo := u.rxFifo.tail }

/-- `tx_write(b)` (rule R200). A byte is loaded, so THRE may fire again (rule R210). Whether the transmitter is idle
afterwards is the environment's (log entry 22). -/
def Uart.txWrite (u : Uart) (b : Byte) : Uart := { u with txOut := u.txOut ++ [b], thrArmed := true }

/-- What is left of an agent's sequence. -/
def State.tasks (s : State) : Agent → List Task
  | .main => s.main
  | .kicker => s.kicker
  | .rda => s.rda
  | .thre => s.thre
  | .err => s.err

/-- Replaces what is left of an agent's sequence. -/
def State.setTasks (s : State) (a : Agent) (ts : List Task) : State :=
  match a with
  | .main => { s with main := ts }
  | .kicker => { s with kicker := ts }
  | .rda => { s with rda := ts }
  | .thre => { s with thre := ts }
  | .err => { s with err := ts }

/-- A sequence of the mainline returns. -/
def State.giveBack (s : State) (r : Ret) : State := { s with returned := some r }

/-- The port a part of a sequence drives (rule R201). -/
def Task.port : Task → Option Port
  | .drain => some (.w .rx)
  | .copy _ _ => some (.r .rx)
  | .clearRx => some (.c .rx)
  | .discardRx => none
  | .pollPending => none
  | .send _ _ => some (.w .tx)
  | .kick => some (.r .tx)
  | .rekick => some (.r .tx)
  | .pump => some (.r .tx)
  | .lsrRead => none
  | .advance => some .d
  | .done _ => none

/-- One TX pop handed to the transmitter: `TX.R: POP -> b; tx_write(b)` (rules R204, R210). DESIGN CHOICE (log entry 39):
the POP and the `tx_write` of its byte are one step, so no other agent's step falls between them; rule R212 makes only
the FIFO step atomic. -/
def popToUart (s : State) : Host.Outcome State Fault Refusal :=
  onNext (execPop .tx s) fun t =>
    match t.tx.result with
    | some b => .next (t.setUart (t.uart.txWrite b))
    | none => .next t

/-- The body of the receive drain for the byte `b` just read from the hardware (rule R202): PUSH is presented whether
or not RX is full, which "has the same effect as the branch", and at full the loop ends. DESIGN CHOICE (log entry 39): the
`rx_read` and the PUSH of its byte are one step, so no other agent's step falls between them; rule R212 makes only the
FIFO step atomic. -/
def drainByte (b : Byte) (s : State) : Host.Outcome (List Task × State) Fault Refusal :=
  onNext (execPush .rx b (s.setUart s.uart.dropRx)) fun t =>
    .next (if s.rx.full then [] else [.drain], t)

/-- One pass of the copy loop of `receive` (rule R205). The poll that finds `empty = 1` is one RNOP edge (vector B9, log
entry 17). -/
def copyStep (cap : Nat) (got : List Byte) (s : State) : Host.Outcome (List Task × State) Fault Refusal :=
  if cap ≤ got.length then .next ([], s.giveBack (.bytes got))
  else if s.rx.empty then onNext (execRnop .rx s) fun t => .next ([], t.giveBack (.bytes got))
  else onNext (execPop .rx s) fun t => .next ([.copy cap (got ++ t.rx.result.toList)], t)

/-- One pass of the loop of `send` (rule R203): a busy-wait poll is one WNOP; there is no timeout (rule R214). -/
def sendStep (k : KickPolicy) (b : Byte) (rest : List Byte) (s : State) :
    Host.Outcome (List Task × State) Fault Refusal :=
  if s.tx.full then onNext (execWnop .tx s) fun t => .next ([.send k (b :: rest)], t)
  else
    onNext (execPush .tx b s) fun t =>
      .next ((if k = .afterEachByte then [.kick] else []) ++ [.send k rest], t)

/-- A kick that did nothing (rule R204). With S at least 1 it is to be repeated until it succeeds: that is handed to the
kicker, one repetition for each missed kick (log entry 38). With S = 0 a byte is visible at once and the kick is over
(vector B9). -/
def kickMissed (s : State) : State :=
  if s.tx.stages = 0 then s else s.setTasks .kicker (s.kicker ++ [.rekick])

/-- The first attempt of the kick (rule R204). -/
def kickStep (s : State) : Host.Outcome (List Task × State) Fault Refusal :=
  if s.uart.txIdle && !s.tx.empty then onNext (popToUart s) fun t => .next ([], t)
  else .next ([], kickMissed s)

/-- The repeated kick: "a pump that presents POP whenever `tx_idle and TX.empty = 0`" (rule R204). Else its poll is one
RNOP, as in program P4 (log entry 38). -/
def rekickStep (s : State) : Host.Outcome (List Task × State) Fault Refusal :=
  if s.uart.txIdle && !s.tx.empty then onNext (popToUart s) fun t => .next ([], t)
  else onNext (execRnop .tx s) fun t => .next ([.rekick], t)

/-- One step of a part: what of it is still to be run, and the state. -/
def taskStep (t : Task) (s : State) : Host.Outcome (List Task × State) Fault Refusal :=
  match t with
  | .drain =>
    match s.uart.rxFifo with
    | [] => .next ([], s)
    | b :: _ => drainByte b s
  | .copy cap got => copyStep cap got s
  | .clearRx => onNext (execClear .rx s) fun u => .next ([], u)
  | .discardRx => .next ([], s.setUart s.uart.dropRx)
  | .pollPending => .next ([], s.giveBack (.pending (!s.rx.empty || s.uart.rxReady)))
  | .send _ [] => .next ([], s)
  | .send k (b :: rest) => sendStep k b rest s
  | .kick => kickStep s
  | .rekick => rekickStep s
  | .pump => if s.tx.empty then .next ([], s) else onNext (popToUart s) fun u => .next ([.pump], u)
  | .lsrRead => .next ([], s.setUart { s.uart with lineError := false })
  | .advance => onNext (execAdvance s) fun u => .next ([], u)
  | .done r => .next ([], s.giveBack r)

/-- Whether an agent with these parts still to run drives the port `p` (rules R201, R275). A sequence drives the ports of
all its parts until they are done, but for TX.R: the mainline drives that only while it makes the kick (log entry 15). -/
def drivesPort (ts : List Task) (p : Port) : Bool :=
  decide (ts.head?.bind Task.port = some p) || (decide (p ≠ .r .tx) && ts.any fun t => decide (t.port = some p))

/-- Whether some agent is running a sequence that drives the port `p`. -/
def State.drives (s : State) (p : Port) : Bool :=
  drivesPort s.main p || drivesPort s.kicker p || drivesPort s.rda p || drivesPort s.thre p || drivesPort s.err p

/-- Whether an interrupt handler that has not ended drives the port `p` (rule R201). -/
def State.handlerDrives (s : State) (p : Port) : Bool :=
  decide (s.rda.head?.bind Task.port = some p) || decide (s.thre.head?.bind Task.port = some p)

/-- One step of an agent. The mainline and its kicker do not step on a port while a handler drives it (rules R201, R275;
log entry 15), and the mainline does not clear RX while the clear pin of RX is held at 1 from outside, which is another
agent on RX.C (rules R275, R246(b), U8), nor while the RDA drain runs (rules R206, R276). An agent with nothing to run
does nothing. -/
def agentStep (a : Agent) (s : State) : Host.Outcome State Fault Refusal :=
  match s.tasks a with
  | [] => .next s
  | t :: ts =>
    if decide (a = .main ∨ a = .kicker) && t.port.any s.handlerDrives then
      .refused (.twoDrivers (t.port.getD .d))
    else if decide (t = .clearRx) && s.rx.clr then .refused (.twoDrivers (.c .rx))
    else if decide (t = .clearRx) && !s.rda.isEmpty then .refused (.clearOverlap .rx)
    else onNext (taskStep t s) fun r => .next (r.2.setTasks a (r.1 ++ ts))

/-- `send(bytes)` under a kick policy (rule R203). -/
def sendTasks (k : KickPolicy) (bs : List Byte) : List Task :=
  [.send k bs] ++ (if k = .afterAllBytes then [.kick] else [])

/-- The bytes `print_line` sends of its text: those before the first 0x00 (rule R208). -/
def lineText (text : List Byte) : List Byte := text.takeWhile fun b => decide (b ≠ 0x00#8)

/-- The line terminator of `print_line` (rules R6, R208). -/
def lineEnd : List Byte := [0x0D#8, 0x0A#8]

/-- The parts of a sequence the mainline calls (rules R203 to R208, R216). What `print_line` returns is not stated; DESIGN
CHOICE (log entry 34): the count of all bytes of both sends. -/
def callTasks (k : KickPolicy) : Call → List Task
  | .send bs => sendTasks k bs ++ [.done (.count bs.length)]
  | .printLine text =>
    sendTasks k (lineText text) ++ sendTasks k lineEnd
      ++ [.done (.count ((lineText text).length + lineEnd.length))]
  | .receive cap => [.drain, .copy cap []]
  | .clearReceive => [.clearRx, .discardRx]
  | .hasPending => [.pollPending]
  | .kick => [.kick]
  | .advance => [.advance]

/-- Starts a sequence on an agent, after the UART is configured (rule R273, R246(d)). No agent is reentrant with itself
(rules R201, R248), so the sequence runs after those the agent still has to run: rule R247 has an event that comes while
delivery is suppressed "taken after it". DESIGN CHOICE (log entry 28): every start is kept, in the order they come. DESIGN
CHOICE (log entry 40): `rst` is not asked, so a sequence or a handler may start and run while `rst` is asserted; its
operating commands are refused then (rule R272), the rest of it runs. -/
def State.start (s : State) (a : Agent) (ts : List Task) : Host.Outcome State Fault Refusal :=
  if s.uart.ready then .next (s.setTasks a (s.tasks a ++ ts)) else .refused .notInitialised

/-- The state in which the THRE request has been taken: "hardware will not re-fire" until data is loaded (rule R210). -/
def State.disarmThre (s : State) : State := s.setUart { s.uart with thrArmed := false }

/-- An interrupt (rule R247): the timer is one `tick` strobe; RDA drains (R209); THRE pumps, and does not fire again
until a byte is loaded (R210), so until then its input changes nothing (log entry 20); ERR reads the line status and
discards a byte (R211). No drain runs in the clear window of RX (R276). -/
def interrupt (q : Irq) (s : State) : Host.Outcome State Fault Refusal :=
  match q with
  | .timer => execTick s
  | .rda =>
    onNext (s.start .rda [.drain]) fun t => if s.rx.inClearWindow then .refused (.clearWindow .rx) else .next t
  | .thre => onNext (s.start .thre [.pump]) fun t => .next (if s.uart.thrArmed then t.disarmThre else s)
  | .err => s.start .err [.lsrRead, .discardRx]

/-- What the UART does by itself (rule R200); a line error is recorded as the event E4 (rule R244). DESIGN CHOICE (log
entry 37): the line error itself puts no byte into the hardware receive FIFO; a corrupted byte that sits there is an
arrival of its own. DESIGN CHOICE (log entry 40): all of these, `configure` too, may happen while `rst` is asserted. -/
def uartEvent (e : UartEvent) (s : State) : State :=
  match e with
  | .configure => s.setUart { s.uart with ready := true }
  | .arrive b => s.setUart { s.uart with rxFifo := s.uart.rxFifo ++ [b] }
  | .idle yes => s.setUart { s.uart with txIdle := yes }
  | .lineError => (s.setUart { s.uart with lineError := true }).record .lineError

end Sys2Proof.Machine
end

