-- ==== Sys2Proof/Machine/Pins.lean ====
section
/-! DEFINITION. The pins that are not clocked commands, lines presented at one instant, the output ports, and what a
trace writes as the result of a line. -/

namespace Sys2Proof.Machine

/-- Why a command from outside the agents, on its own port, is no behaviour of the hardware (rule R246): an operating
command on a port that a running sequence drives is a second driver (rules R201, R275, U8), and a CLEAR while a sequence
drives the instance finds its ports not idle (rules R206, R276). Idle commands are clock edges without a driver. On port
D the mainline's part is the advancer (rule R250), so a TICK is no second driver of it. -/
def secondDriver (i : Instr) (s : State) : Option Refusal :=
  match i with
  | .push F _ => if s.drives (.w F) then some (.twoDrivers (.w F)) else none
  | .wnop _ => none
  | .pop F => if s.drives (.r F) then some (.twoDrivers (.r F)) else none
  | .rnop _ => none
  | .clear F =>
    if s.drives (.c F) then some (.twoDrivers (.c F))
    else if s.drives (.w F) || s.drives (.r F) then some (.clearOverlap F)
    else none
  | .cnop _ => none
  | .dnop => none
  | .tick => none
  | .advance => if s.drives .d then some (.twoDrivers .d) else none
  | .tickAdvance => if s.drives .d then some (.twoDrivers .d) else none

/-- A port line (rule R103): the instruction its word decodes to, run with the line's draw, unless it is a second
driver. -/
def runLine (l : Line) (s : State) : Host.Outcome State Fault Refusal :=
  match secondDriver (decode l.word) s with
  | some q => .refused q
  | none => exec (decode l.word) (s.setLineDraw l.draw)

/-- A change of the level of `F.clr`. A rise makes the one CLEAR step of the period (rule R95); the quiet window of S + 1
edges of each clock is counted from the fall (rule R276). No sequence may drive the instance at a rise. A level that
stays what it was does nothing. -/
def setClr (F : Inst) (level : Bool) (s : State) : Host.Outcome State Fault Refusal :=
  if level = (s.fifo F).clr then .next s
  else if level then
    match secondDriver (.clear F) s with
    | some q => .refused q
    | none => onNext (execClear F s) fun t => .next (t.setFifo F (t.fifo F).raiseClr)
  else .next (s.setFifo F (s.fifo F).lowerClr)

/-- A change of the level of `rst` (rules R270, R272). A rise resets both blocks in one step; `clr` must be 0 then. -/
def setRst (level : Bool) (s : State) : Host.Outcome State Fault Refusal :=
  if level = s.rst then .next s
  else if level then
    if s.rx.clr || s.tx.clr then .refused .commandDuringReset else .next (s.hardReset.setRstPin true)
  else .next (s.setRstPin false)

/-- The instance a command operates on in its own domain: PUSH and POP, not the idle commands. -/
def operatesOn : Instr → Option Inst
  | .push F _ => some F
  | .wnop _ => none
  | .pop F => some F
  | .rnop _ => none
  | .clear _ => none
  | .cnop _ => none
  | .dnop => none
  | .tick => none
  | .advance => none
  | .tickAdvance => none

/-- Whether CLEAR of `F` is among commands presented at one instant. -/
def clearsAt (is : List Instr) (F : Inst) : Bool := is.contains (.clear F)

/-- The first port that occurs twice. -/
def firstTwice : List Port → Option Port
  | [] => none
  | p :: ps => if ps.contains p then some p else firstTwice ps

/-- Commands presented at one instant (rules R102, R120, R201). Two on one port, and a PUSH or POP with a CLEAR of the
same instance, are refused; the others are steps in the order they are listed, which the environment chooses. -/
def together (ls : List Line) (s : State) : Host.Outcome State Fault Refusal :=
  let is := ls.map fun l => decode l.word
  match firstTwice (is.map Instr.port) with
  | some p => .refused (.twoDrivers p)
  | none =>
    match (is.filterMap operatesOn).find? (clearsAt is) with
    | some F => .refused (.clearOverlap F)
    | none => .next (s.setInputs (ls.map Input.line ++ s.inputs))

/-- The output `r_data` (rules R27, R91): the byte of slot `rptr`; while `empty = 1`, and for a slot that holds no
value, a free value (rules R123, R279, U2). -/
def State.rData (s : State) (F : Inst) : Byte :=
  if (s.fifo F).empty then Config.freeByte F s.drawCount
  else (memRead (s.fifo F).mem (s.fifo F).readIndex).getD (Config.freeByte F s.drawCount)

/-- The output ports of one FIFO instance (rule R91). -/
structure FifoOut where
  full  : Bool
  empty : Bool
  rData : Byte
  deriving DecidableEq, Repr

/-- The output ports of the display (rule R92). -/
structure DisplayOut where
  sel : Byte
  red : Byte
  grn : Byte
  deriving DecidableEq, Repr

/-- What instance `F` shows on its output ports (rules R22, R91). -/
def State.fifoOut (s : State) (F : Inst) : FifoOut :=
  { full := (s.fifo F).full, empty := (s.fifo F).empty, rData := s.rData F }

/-- What the display shows on its output ports (rules R22, R92). -/
def State.displayOut (s : State) : DisplayOut := { sel := s.disp.sel, red := s.disp.red, grn := s.disp.grn }

/-- What a trace writes after `->` (rule R103). -/
inductive TraceResult where
  | nothing
  | byte (b : Byte)
  | none
  | dropped
  | outputs (o : DisplayOut)
  deriving DecidableEq, Repr

/-- The result of a command that took `before` to `after` (rule R103). -/
def traceResult (i : Instr) (before after : State) : TraceResult :=
  match i with
  | .push F _ => if (before.fifo F).full then .dropped else .nothing
  | .wnop _ => .nothing
  | .pop F =>
    match (after.fifo F).result with
    | some b => .byte b
    | none => .none
  | .rnop _ => .nothing
  | .clear _ => .nothing
  | .cnop _ => .nothing
  | .dnop => .nothing
  | .tick => .outputs after.displayOut
  | .advance => .nothing
  | .tickAdvance => .outputs after.displayOut

end Sys2Proof.Machine
end

