-- ==== Sys2Proof/Machine/Step.lean ====
section
/-! DEFINITION. One step of the machine: the next thing the environment presents (rules R10, R90). -/

namespace Sys2Proof.Machine

/-- One step. The machine has no fetch (rule R22): it takes the next input the environment presents. A port line runs the
instruction its word decodes to, where no running sequence drives its port (rule R275). With nothing presented no clock
has an edge and nothing changes (log entry 3). -/
def step (s : State) : Host.Outcome State Fault Refusal :=
  match s.inputs with
  | [] => .next s
  | i :: rest =>
    match i with
    | .line l => runLine l (s.setInputs rest)
    | .together ls => together ls (s.setInputs rest)
    | .clr F level => setClr F level (s.setInputs rest)
    | .rst level => setRst level (s.setInputs rest)
    | .uart e => .next (uartEvent e (s.setInputs rest))
    | .irq q => interrupt q (s.setInputs rest)
    | .call c => (s.setInputs rest).start .main (callTasks Config.kickPolicy c)
    | .run a draw => agentStep a ((s.setInputs rest).setLineDraw draw)

/-- `s` with the port word that a bare number of `nbits` bits stands for presented next, before everything else that is
pending (log entries 1, 2). A number that is no port word leaves `s` as it is. A second driver stays refused (rule
R275). -/
def State.withFetchWord (s : State) (nbits w : Nat) : State :=
  match tablePortWord nbits w with
  | .ok word => s.setInputs (.line { word := word, draw := none } :: s.inputs)
  | .error _ => s

end Sys2Proof.Machine
end

