-- ==== Sys2Proof/Safety.lean ====
section
/-! DEFINITION. What a sound state is, and what the claims mean by "the rest is unchanged". -/

namespace Sys2Proof.Machine

/-- The gray image of a cursor that has been advanced `k` times since it was 0 (rules R23, R130). -/
def grayAt (k : Nat) : Cursor := gray (BitVec.ofNat 7 k)

/-- What the synchroniser that carries a cursor holds (rule R140 (I2)): each stage is the gray image of a value the
cursor has held, an older stage an older or equal value; if the source has had a step since the last sample, the value
before its most recent step is at most one behind and no older than what has been sampled (rules R23, R126). `count` is
how often the cursor has been advanced since the last CLEAR, `least` the least count that may still be in flight. -/
def SyncSound (stages : List Cursor) (count least : Nat) (fresh : Bool) (prev : Cursor) : Prop :=
  ∃ ages : List Nat,
    stages = ages.map grayAt ∧
    List.Pairwise (fun newer older => older ≤ newer) (count :: ages) ∧
    (∀ k ∈ ages, least ≤ k) ∧
    (fresh = true → ∃ p, prev = grayAt p ∧ p ≤ count ∧ count ≤ p + 1 ∧ ∀ k ∈ ages, k ≤ p)

/-- The invariants of one FIFO instance (rules R24, R25, R32, R140), in terms of the records of effective PUSHes and
POPs since the last CLEAR. -/
structure Fifo.Sound (f : Fifo) : Prop where
  /-- The write cursor counts the effective PUSHes, modulo 128. -/
  wptr_count : f.wptr = BitVec.ofNat 7 f.pushed.length
  /-- (I1), write side. -/
  wgray_image : f.wgray = gray f.wptr
  /-- The read cursor counts the effective POPs, modulo 128. -/
  rptr_count : f.rptr = BitVec.ofNat 7 f.delivered.length
  /-- (I1), read side. -/
  rgray_image : f.rgray = gray f.rptr
  /-- What was delivered is the beginning of what was pushed (rule R143). -/
  order : f.delivered <+: f.pushed
  /-- At most 127 bytes are held (rule R140 (I3)). -/
  room : f.pushed.length ≤ f.delivered.length + 127
  /-- (I4): the slots from `rptr` on hold the undelivered bytes, oldest first. -/
  held : ∀ k, f.delivered.length ≤ k → k < f.pushed.length → memRead f.mem (k % 128) = f.pushed[k]?
  /-- The storage is in canonical form. -/
  canonical : f.mem.wf = true
  /-- Both synchronisers have S stages (rules R24, R25). -/
  stages : f.rsync.length = f.wsync.length
  /-- (I2) for `wsync`: no stage is older than the read cursor. -/
  wsync_sound : SyncSound f.wsync f.pushed.length f.delivered.length f.wFresh f.wgrayPrev
  /-- (I2) for `rsync`: no stage is so old that 128 bytes would fit behind it. -/
  rsync_sound : SyncSound f.rsync f.delivered.length (f.pushed.length - 127) f.rFresh f.rgrayPrev

/-- The invariants of the display (rule R44); `glyph ≤ 10` and `color ≤ 2` hold by their types. -/
structure Display.Sound (d : Display) : Prop where
  /-- `mask = 1 << col`. -/
  mask_col : d.mask = 1#8 <<< d.col.toNat
  /-- `sel` is 0 until the first TICK and one-hot after it. -/
  sel_line : d.sel = 0#8 ∨ ∃ k, k < 8 ∧ d.sel = 1#8 <<< k

/-- A state the machine can be in. -/
structure State.Sound (s : State) : Prop where
  rx : s.rx.Sound
  tx : s.tx.Sound
  disp : s.disp.Sound

/-- An instance whose domains see each other's cursors as they are now and to which no draw can bring an older one
(what `SETTLE` of rule R104 leaves). -/
def Fifo.Settled (f : Fifo) : Prop :=
  (∀ g ∈ f.wsync, g = f.wgray) ∧ (∀ g ∈ f.rsync, g = f.rgray) ∧
  (f.wFresh = true → f.wgrayPrev = f.wgray) ∧ (f.rFresh = true → f.rgrayPrev = f.rgray)

/-- The registers only domain W writes, and storage (rules R24, R120), with the records of the write side. -/
def Fifo.SameWriteSide (f g : Fifo) : Prop :=
  g.mem = f.mem ∧ g.wptr = f.wptr ∧ g.wgray = f.wgray ∧ g.rsync = f.rsync ∧ g.wgrayPrev = f.wgrayPrev ∧
  g.wHold = f.wHold ∧ g.pushed = f.pushed

/-- The registers only domain R writes (rules R25, R120), with the records of the read side. -/
def Fifo.SameReadSide (f g : Fifo) : Prop :=
  g.rptr = f.rptr ∧ g.rgray = f.rgray ∧ g.wsync = f.wsync ∧ g.rgrayPrev = f.rgrayPrev ∧
  g.rHold = f.rHold ∧ g.delivered = f.delivered ∧ g.result = f.result

/-- Everything around the two blocks: the reset pin, what is pending, the UART and the agents. -/
def State.SameSurroundings (s t : State) : Prop :=
  t.rst = s.rst ∧ t.inputs = s.inputs ∧ t.lineDraw = s.lineDraw ∧ t.uart = s.uart ∧ t.main = s.main ∧
  t.kicker = s.kicker ∧ t.rda = s.rda ∧ t.thre = s.thre ∧ t.err = s.err ∧ t.returned = s.returned

/-- Everything outside instance `F`, but for the history and the draw counter. -/
def State.SameOutside (F : Inst) (s t : State) : Prop :=
  (∀ G, G ≠ F → t.fifo G = s.fifo G) ∧ t.disp = s.disp ∧ s.SameSurroundings t

/-- Everything outside the display. -/
def State.SameOutsideDisplay (s t : State) : Prop :=
  (∀ F, t.fifo F = s.fifo F) ∧ t.history = s.history ∧ t.drawCount = s.drawCount ∧ s.SameSurroundings t

/-- `n` steps from `s` end in the state `t`. -/
def Runs (n : Nat) (s t : State) : Prop := Sys2Proof.core.run n s = .next t

/-- The state with these lines presented next and nothing after them. -/
def State.withLines (s : State) (ls : List Line) : State := s.setInputs (ls.map Input.line)

end Sys2Proof.Machine
end

