-- ==== Sys2Proof/Certificates/Slice0/Obligations.lean ====
section
/-! DEFINITION. The statements for the provers. -/

open Sys2Proof Sys2Proof.Machine

/-! Encoding and the step. -/

/-- Rule R98: the ten rows, with every `d` and `u` bit free; rule R101: WNOP ignores `w_data`. -/
def Obligations.WordsDecodeAsTheTableSays : Prop :=
  ∀ F : Inst,
    (∀ b : Byte, decode (.w F (1#1 ++ b)) = .push F b) ∧
    (∀ u : Byte, decode (.w F (0#1 ++ u)) = .wnop F) ∧
    decode (.r F 1#1) = .pop F ∧ decode (.r F 0#1) = .rnop F ∧
    decode (.c F 1#1) = .clear F ∧ decode (.c F 0#1) = .cnop F ∧
    decode (.d 0b00#2) = .dnop ∧ decode (.d 0b01#2) = .tick ∧
    decode (.d 0b10#2) = .advance ∧ decode (.d 0b11#2) = .tickAdvance

/-- Rule R99: every value of every format is covered by exactly one row of the opcode map, the row of the instruction it
decodes to, and that instruction is one of the word's own port. -/
def Obligations.EveryWordFitsExactlyOneRow : Prop :=
  ∀ word : PortWord,
    ((opcodeMap.filter fun row => row.covers word).map fun row => row.mnemonic) = [(decode word).mnemonic] ∧
    (decode word).port = word.port

/-- Decoding an encoded instruction gives it back; encoding a decoded word gives the word back, but for the ignored bits
of WNOP, which `encode` leaves 0 (the model's choice, log entry 33). -/
def Obligations.DecodeAndEncodeAgree : Prop :=
  (∀ i : Instr, i.wellFormed = true → decode (encode i) = i ∧ (encode i).port = i.port) ∧
  (∀ word : PortWord, (∀ F, decode word ≠ .wnop F) → encode (decode word) = word) ∧
  (∀ F (u : Byte), encode (decode (.w F (0#1 ++ u))) = .w F 0#9)

/-- The next line presented runs the instruction its word decodes to, with the line's draw, on the state without that
line (rule R90; how a command reaches the machine is log entry 2), and a second driver is refused (rule R275;
`SecondDriversAreRefused` says when a line is one). -/
def Obligations.StepRunsTheDecodedInstruction : Prop :=
  ∀ (s : State) (l : Line) (rest : List Input), s.inputs = .line l :: rest →
    (secondDriver (decode l.word) s = none → step s = exec (decode l.word) ((s.setInputs rest).setLineDraw l.draw)) ∧
    (∀ q, secondDriver (decode l.word) s = some q → step s = .refused q)

/-- A bare number that stands for a port word (log entry 1) runs as that word in the very next step (log entry 2),
unless it would be a second driver of its port (rule R275). -/
def Obligations.FetchWordRunsNext : Prop :=
  ∀ (s : State) (nbits w : Nat) (word : PortWord), tablePortWord nbits w = .ok word →
    (secondDriver (decode word) s = none → step (s.withFetchWord nbits w) = exec (decode word) (s.setLineDraw none)) ∧
    (∀ q, secondDriver (decode word) s = some q → step (s.withFetchWord nbits w) = .refused q)

/-! Reset. -/

/-- Rule R30: after reset, for any number of stages, and after CLEAR of any state outside reset, all cursors, gray
images and synchroniser stages are 0, so everything seen is 0 and the flags say empty and not full. -/
def Obligations.FlagsAfterResetAndClear : Prop :=
  (∀ (n : Nat) (F : Inst),
    let f := (State.resetWith n).fifo F
    f.wptr = 0#7 ∧ f.rptr = 0#7 ∧ f.wgray = 0#7 ∧ f.rgray = 0#7 ∧ (∀ g ∈ f.wsync, g = 0#7) ∧ (∀ g ∈ f.rsync, g = 0#7) ∧
    f.wseen = 0#7 ∧ f.rseen = 0#7 ∧ f.empty = true ∧ f.full = false ∧ f.occTrue = 0 ∧ f.occW = 0 ∧ f.occR = 0) ∧
  (∀ (F : Inst) (s : State), s.rst = false → ∃ t, exec (.clear F) s = .next t ∧
    let f := t.fifo F
    f.wptr = 0#7 ∧ f.rptr = 0#7 ∧ f.wgray = 0#7 ∧ f.rgray = 0#7 ∧ (∀ g ∈ f.wsync, g = 0#7) ∧ (∀ g ∈ f.rsync, g = 0#7) ∧
    f.wseen = 0#7 ∧ f.rseen = 0#7 ∧ f.empty = true ∧ f.full = false ∧ f.occTrue = 0 ∧ f.occW = 0 ∧ f.occR = 0)

/-- Rule R46, the registers it gives values for; S is 2 (rule R7). -/
def Obligations.RegistersAtReset : Prop :=
  (∀ F : Inst,
    let f := State.reset.fifo F
    f.wptr = 0#7 ∧ f.rptr = 0#7 ∧ f.wgray = 0#7 ∧ f.rgray = 0#7 ∧ f.wsync = [0#7, 0#7] ∧ f.rsync = [0#7, 0#7] ∧
    f.wgrayPrev = 0#7 ∧ f.rgrayPrev = 0#7 ∧ f.wFresh = false ∧ f.rFresh = false ∧ f.empty = true ∧ f.full = false) ∧
  State.reset.disp.glyph = 0 ∧ State.reset.disp.color = 0 ∧ State.reset.disp.col = 0#3 ∧
  State.reset.disp.mask = 0x01#8 ∧ State.reset.disp.sel = 0x00#8 ∧ State.reset.disp.red = 0x00#8 ∧
  State.reset.disp.grn = 0x00#8

/-- Rules R270 and R272, the reset pin. A rise of `rst` puts the registers of both blocks to their reset values in one
step, on the cursors, gray images and synchronisers the values CLEAR gives. A fall of `rst` leaves them, so that the
first step after it sees the reset values. The model's choices: storage then holds no value (log entry 6), the history
stays (log entry 9), a quiet window ends (log entry 36), and a rise while a `clr` is 1 is refused (log entry 12). -/
def Obligations.RstRiseResetsBothBlocks : Prop :=
  (∀ (s : State) (rest : List Input), s.inputs = .rst true :: rest → s.rst = false → s.rx.clr = false → s.tx.clr = false →
    ∃ t, step s = .next t ∧ t.rst = true ∧ t.disp = State.reset.disp ∧ t.inputs = rest ∧ t.history = s.history ∧
      ∀ F, (t.fifo F).wptr = (s.fifo F).cleared.wptr ∧ (t.fifo F).wgray = (s.fifo F).cleared.wgray ∧
        (t.fifo F).rptr = (s.fifo F).cleared.rptr ∧ (t.fifo F).rgray = (s.fifo F).cleared.rgray ∧
        (t.fifo F).wsync = (s.fifo F).cleared.wsync ∧
        (t.fifo F).rsync.length = (s.fifo F).wsync.length ∧ (∀ g ∈ (t.fifo F).rsync, g = 0#7) ∧
        (t.fifo F).wgrayPrev = 0#7 ∧ (t.fifo F).rgrayPrev = 0#7 ∧
        (t.fifo F).wFresh = false ∧ (t.fifo F).rFresh = false ∧ (∀ i, memRead (t.fifo F).mem i = none) ∧
        (t.fifo F).inClearWindow = false) ∧
  (∀ (s : State) (rest : List Input), s.inputs = .rst true :: rest → s.rst = false →
    (s.rx.clr = true ∨ s.tx.clr = true) → step s = .refused .commandDuringReset) ∧
  (∀ (s : State) (rest : List Input), s.inputs = .rst false :: rest → s.rst = true →
    ∃ t, step s = .next t ∧ t.rst = false ∧ (∀ F, t.fifo F = s.fifo F) ∧ t.disp = s.disp ∧ t.inputs = rest)

/-- Rule R272 and U5: during reset every operating command is refused; the idle commands the environment must present
leave the registers at their values (the model's reading, log entry 12). -/
def Obligations.CommandsDuringReset : Prop :=
  ∀ s : State, s.rst = true →
    (∀ F b, exec (.push F b) s = .refused .commandDuringReset) ∧
    (∀ F, exec (.pop F) s = .refused .commandDuringReset) ∧
    (∀ F, exec (.clear F) s = .refused .commandDuringReset) ∧
    exec .tick s = .refused .commandDuringReset ∧ exec .advance s = .refused .commandDuringReset ∧
    exec .tickAdvance s = .refused .commandDuringReset ∧
    (∀ F, exec (.wnop F) s = .next s) ∧ (∀ F, exec (.rnop F) s = .next s) ∧
    (∀ F, exec (.cnop F) s = .next s) ∧ exec .dnop s = .next s

/-! The write port. -/

/-- Rule R121, PUSH: its word; effective, the byte at `wptr`, the advance modulo 128 and the gray image; ineffective,
the event and nothing else; with S ≥ 1 `empty` does not change in the same step (with S = 0 domain R sees the byte at
once, rule R27 and vector B2); where domain W sees the read cursor as it is, the 127th byte sets `full`; the 128th is
ineffective. -/
def Obligations.PushRule : Prop :=
  ∀ (F : Inst) (b : Byte) (s : State), s.rst = false → (s.fifo F).inClearWindow = false →
    decode (.w F (1#1 ++ b)) = .push F b ∧
    ∃ t, exec (.push F b) s = .next t ∧
      ((s.fifo F).full = false →
        memRead (t.fifo F).mem (s.fifo F).wptr.toNat = some b ∧
        (∀ i, i ≠ (s.fifo F).wptr.toNat → memRead (t.fifo F).mem i = memRead (s.fifo F).mem i) ∧
        (t.fifo F).wptr.toNat = ((s.fifo F).wptr.toNat + 1) % 128 ∧
        (t.fifo F).wgray = gray (t.fifo F).wptr ∧
        (t.fifo F).pushed = (s.fifo F).pushed ++ [b] ∧ t.history = s.history) ∧
      ((s.fifo F).full = true →
        (t.fifo F).mem = (s.fifo F).mem ∧ (t.fifo F).wptr = (s.fifo F).wptr ∧ (t.fifo F).wgray = (s.fifo F).wgray ∧
        (t.fifo F).pushed = (s.fifo F).pushed ∧ t.history = s.history ++ [.overflow F b]) ∧
      ((s.fifo F).wsync ≠ [] → (t.fifo F).empty = (s.fifo F).empty) ∧
      ((s.fifo F).Sound → (∀ g ∈ (s.fifo F).rsync, g = (s.fifo F).rgray) →
        ((s.fifo F).rFresh = true → (s.fifo F).rgrayPrev = (s.fifo F).rgray) → (s.fifo F).occTrue = 126 →
        (s.fifo F).full = false ∧ (t.fifo F).full = true) ∧
      ((s.fifo F).Sound → (s.fifo F).occTrue = 127 → (s.fifo F).full = true)

/-- Rule R122, WNOP: every word of it; no change to `mem`, `wptr`, `wgray`; the bookkeeping of rule R128 still happens,
so `rsync` shifts and `full` is then what the shifted synchroniser says. -/
def Obligations.WnopRule : Prop :=
  ∀ (F : Inst) (s : State), s.rst = false →
    (∀ u : Byte, decode (.w F (0#1 ++ u)) = .wnop F) ∧
    ∃ t, exec (.wnop F) s = .next t ∧ (t.fifo F).mem = (s.fifo F).mem ∧ (t.fifo F).wptr = (s.fifo F).wptr ∧
      (t.fifo F).wgray = (s.fifo F).wgray ∧ (t.fifo F).wFresh = true ∧ (t.fifo F).wgrayPrev = (s.fifo F).wgray ∧
      (t.fifo F).rFresh = false ∧ t.history = s.history ∧ (t.fifo F).pushed = (s.fifo F).pushed ∧
      (t.fifo F).rsync = ((if (s.fifo F).rFresh = true ∧ s.draw = .old then (s.fifo F).rgrayPrev else (s.fifo F).rgray) ::
        (s.fifo F).rsync).dropLast ∧
      ((t.fifo F).full = true ↔ gray ((s.fifo F).wptr + 1#7) = (t.fifo F).rseen)

/-- Rules R126 and R128: on every `WEDGE` outside reset, by PUSH or WNOP, each later stage of `rsync` takes the stage
before it, the first takes the sample, and the draw bookkeeping is set. -/
def Obligations.WriteEdgeBookkeeping : Prop :=
  ∀ (F : Inst) (i : Instr) (s t : State), (i = .wnop F ∨ ∃ b, i = .push F b) → s.rst = false → exec i s = .next t →
    (t.fifo F).rsync.length = (s.fifo F).rsync.length ∧
    (∀ k, k + 1 < (s.fifo F).rsync.length → (t.fifo F).rsync[k + 1]? = (s.fifo F).rsync[k]?) ∧
    ((s.fifo F).rsync ≠ [] → (t.fifo F).rsync[0]? = some
      (if (s.fifo F).rFresh = true ∧ s.draw = .old then (s.fifo F).rgrayPrev else (s.fifo F).rgray)) ∧
    (∀ d, s.lineDraw = some d → s.draw = d) ∧
    (t.fifo F).rFresh = false ∧ (t.fifo F).wgrayPrev = (s.fifo F).wgray ∧ (t.fifo F).wFresh = true

/-- The frame of the write port (rule R120): domain R, the other instance, the display and everything around are
unchanged; every byte of storage is, but for the one an effective PUSH stores at `wptr`. -/
def Obligations.WritePortFrame : Prop :=
  ∀ (F : Inst) (i : Instr) (s t : State), (i = .wnop F ∨ ∃ b, i = .push F b) → exec i s = .next t →
    (s.fifo F).SameReadSide (t.fifo F) ∧ s.SameOutside F t ∧ (t.fifo F).clr = (s.fifo F).clr ∧
    (∀ a, (i = .wnop F ∨ (s.fifo F).full = true ∨ a ≠ (s.fifo F).writeIndex) →
      memRead (t.fifo F).mem a = memRead (s.fifo F).mem a) ∧
    (i = .wnop F ∨ (s.fifo F).full = true →
      (t.fifo F).mem = (s.fifo F).mem ∧ (t.fifo F).wptr = (s.fifo F).wptr ∧ (t.fifo F).wgray = (s.fifo F).wgray ∧
      (t.fifo F).pushed = (s.fifo F).pushed)

/-! The read port. -/

/-- Rule R123, POP: its word; effective, the byte `r_data` showed, the advance modulo 128 and the gray image;
ineffective, nothing delivered and the event; storage is never written; with S ≥ 1 `full` does not change in the same
step (with S = 0 domain W sees the free slot at once, rule R27 and vector B3). The slot an effective POP reads holds a
value (that it does in every sound state is `PopCompletesWhenSound`; a slot without one is refused, U1). -/
def Obligations.PopRule : Prop :=
  ∀ (F : Inst) (s : State), s.rst = false → (s.fifo F).inClearWindow = false →
    decode (.r F 1#1) = .pop F ∧
    (∀ b, (s.fifo F).empty = false → memRead (s.fifo F).mem (s.fifo F).rptr.toNat = some b →
      s.rData F = b ∧ ∃ t, exec (.pop F) s = .next t ∧ (t.fifo F).result = some b ∧
        (t.fifo F).delivered = (s.fifo F).delivered ++ [b] ∧
        (t.fifo F).rptr.toNat = ((s.fifo F).rptr.toNat + 1) % 128 ∧ (t.fifo F).rgray = gray (t.fifo F).rptr ∧
        (t.fifo F).mem = (s.fifo F).mem ∧ t.history = s.history ∧
        ((s.fifo F).rsync ≠ [] → (t.fifo F).full = (s.fifo F).full)) ∧
    ((s.fifo F).empty = true →
      ∃ t, exec (.pop F) s = .next t ∧ (t.fifo F).result = none ∧
        (t.fifo F).delivered = (s.fifo F).delivered ∧
        (t.fifo F).rptr = (s.fifo F).rptr ∧ (t.fifo F).rgray = (s.fifo F).rgray ∧
        (t.fifo F).mem = (s.fifo F).mem ∧ t.history = s.history ++ [.underflow F] ∧
        ((s.fifo F).rsync ≠ [] → (t.fifo F).full = (s.fifo F).full)) ∧
    ((s.fifo F).empty = false → memRead (s.fifo F).mem (s.fifo F).rptr.toNat = none →
      exec (.pop F) s = .refused (.unwrittenSlot F))

/-- Rule R124, RNOP: its word; no change to `rptr`, `rgray`; the bookkeeping of rule R129 still happens, so `wsync`
shifts and `empty` is then what the shifted synchroniser says. -/
def Obligations.RnopRule : Prop :=
  ∀ (F : Inst) (s : State), s.rst = false →
    decode (.r F 0#1) = .rnop F ∧
    ∃ t, exec (.rnop F) s = .next t ∧ (t.fifo F).rptr = (s.fifo F).rptr ∧ (t.fifo F).rgray = (s.fifo F).rgray ∧
      (t.fifo F).rFresh = true ∧ (t.fifo F).rgrayPrev = (s.fifo F).rgray ∧ (t.fifo F).wFresh = false ∧
      t.history = s.history ∧ (t.fifo F).delivered = (s.fifo F).delivered ∧ (t.fifo F).result = (s.fifo F).result ∧
      (t.fifo F).wsync = ((if (s.fifo F).wFresh = true ∧ s.draw = .old then (s.fifo F).wgrayPrev else (s.fifo F).wgray) ::
        (s.fifo F).wsync).dropLast ∧
      ((t.fifo F).empty = true ↔ (s.fifo F).rgray = (t.fifo F).wseen)

/-- Rules R126 and R129: on every `REDGE` outside reset, by POP or RNOP, each later stage of `wsync` takes the stage
before it, the first takes the sample, and the draw bookkeeping is set. -/
def Obligations.ReadEdgeBookkeeping : Prop :=
  ∀ (F : Inst) (i : Instr) (s t : State), (i = .rnop F ∨ i = .pop F) → s.rst = false → exec i s = .next t →
    (t.fifo F).wsync.length = (s.fifo F).wsync.length ∧
    (∀ k, k + 1 < (s.fifo F).wsync.length → (t.fifo F).wsync[k + 1]? = (s.fifo F).wsync[k]?) ∧
    ((s.fifo F).wsync ≠ [] → (t.fifo F).wsync[0]? = some
      (if (s.fifo F).wFresh = true ∧ s.draw = .old then (s.fifo F).wgrayPrev else (s.fifo F).wgray)) ∧
    (∀ d, s.lineDraw = some d → s.draw = d) ∧
    (t.fifo F).wFresh = false ∧ (t.fifo F).rgrayPrev = (s.fifo F).rgray ∧ (t.fifo F).rFresh = true

/-- The frame of the read port (rule R120): domain W with all of storage, the other instance, the display and everything
around are unchanged; RNOP keeps the result and what was delivered. -/
def Obligations.ReadPortFrame : Prop :=
  ∀ (F : Inst) (i : Instr) (s t : State), (i = .rnop F ∨ i = .pop F) → exec i s = .next t →
    (s.fifo F).SameWriteSide (t.fifo F) ∧ s.SameOutside F t ∧ (t.fifo F).clr = (s.fifo F).clr ∧
    (∀ a, memRead (t.fifo F).mem a = memRead (s.fifo F).mem a) ∧
    (i = .rnop F ∨ (s.fifo F).empty = true →
      (t.fifo F).rptr = (s.fifo F).rptr ∧ (t.fifo F).rgray = (s.fifo F).rgray ∧
      (t.fifo F).delivered = (s.fifo F).delivered) ∧
    (i = .rnop F → (t.fifo F).result = (s.fifo F).result)

/-! The clear port. -/

/-- Rule R125, CLEAR: its word, every register it zeroes, the event with the bytes discarded, storage unchanged, the
flags after it, and that a second CLEAR changes no register. -/
def Obligations.ClearRule : Prop :=
  ∀ (F : Inst) (s : State), s.rst = false →
    decode (.c F 1#1) = .clear F ∧
    ∃ t, exec (.clear F) s = .next t ∧
      (t.fifo F).wptr = 0#7 ∧ (t.fifo F).wgray = 0#7 ∧ (t.fifo F).rptr = 0#7 ∧ (t.fifo F).rgray = 0#7 ∧
      (t.fifo F).wsync.length = (s.fifo F).wsync.length ∧ (∀ g ∈ (t.fifo F).wsync, g = 0#7) ∧
      (t.fifo F).rsync.length = (s.fifo F).rsync.length ∧ (∀ g ∈ (t.fifo F).rsync, g = 0#7) ∧
      (t.fifo F).wgrayPrev = 0#7 ∧ (t.fifo F).rgrayPrev = 0#7 ∧
      (t.fifo F).wFresh = false ∧ (t.fifo F).rFresh = false ∧
      (t.fifo F).mem = (s.fifo F).mem ∧ t.history = s.history ++ [.cleared F (s.fifo F).occTrue] ∧
      (t.fifo F).empty = true ∧ (t.fifo F).full = false ∧
      ∃ u, exec (.clear F) t = .next u ∧ u.fifo F = t.fifo F

/-- The frame of CLEAR (rule R125): the other instance, the display, everything around, the draw counter and every byte
of storage are unchanged; so is the clear pin. The quiet window of rule R276 is open afterwards, S + 1 edges of each
clock, since a CLEAR command is a whole period of `clr` (the model's reading, log entries 10 and 11); that the last result
stays is the model's choice (log entry 8). -/
def Obligations.ClearFrame : Prop :=
  ∀ (F : Inst) (s t : State), exec (.clear F) s = .next t →
    s.SameOutside F t ∧ t.drawCount = s.drawCount ∧
    (∀ a, memRead (t.fifo F).mem a = memRead (s.fifo F).mem a) ∧
    (t.fifo F).clr = (s.fifo F).clr ∧ (t.fifo F).wHold = (s.fifo F).wsync.length + 1 ∧
    (t.fifo F).rHold = (s.fifo F).wsync.length + 1 ∧ (t.fifo F).result = (s.fifo F).result

/-- Rule R127, CNOP: its word; no step happens and no state changes. -/
def Obligations.CnopRule : Prop :=
  ∀ (F : Inst) (s : State), decode (.c F 0#1) = .cnop F ∧ exec (.cnop F) s = .next s

/-- Rules R102 and R276: while `clr` is 1, PUSH and POP of that instance are refused, in and out of reset; and outside
reset they are refused, as `clearWindow`, all through the clear window, that is while `clr` is 1 and in the quiet window
that `QuietWindowAfterClrFalls` counts. -/
def Obligations.PortsRefusedWhileClrIsHigh : Prop :=
  ∀ (F : Inst) (s : State),
    ((s.fifo F).clr = true →
      (∀ b, ∃ q, exec (.push F b) s = .refused q) ∧ (∃ q, exec (.pop F) s = .refused q)) ∧
    (s.rst = false → (s.fifo F).inClearWindow = true →
      (∀ b, exec (.push F b) s = .refused (.clearWindow F)) ∧ exec (.pop F) s = .refused (.clearWindow F)) ∧
    ((s.fifo F).inClearWindow = true ↔ (s.fifo F).clr = true ∨ (s.fifo F).wHold ≠ 0 ∨ (s.fifo F).rHold ≠ 0)

/-- Rule R276: after `clr` falls, `w` edges of `wclk` and `r` edges of `rclk` by idle commands leave the quiet window
open as long as either is below S + 1, and close it when both have reached it. The same after a CLEAR command, which is a
whole period of `clr` (the model's reading, log entry 10). -/
def Obligations.QuietWindowAfterClrFalls : Prop :=
  (∀ (F : Inst) (s : State) (rest : List Input) (w r : Nat), s.inputs = .clr F false :: rest → s.rst = false →
    (s.fifo F).clr = true →
    ∃ t, step s = .next t ∧ (t.fifo F).clr = false ∧
      ∃ u, Runs (w + r) (t.withLines
          (List.replicate w (lineOf (.wnop F) none) ++ List.replicate r (lineOf (.rnop F) none))) u ∧
        ((u.fifo F).inClearWindow = true ↔ w < (s.fifo F).wsync.length + 1 ∨ r < (s.fifo F).wsync.length + 1)) ∧
  (∀ (F : Inst) (s : State) (w r : Nat), s.rst = false → (s.fifo F).clr = false →
    ∃ t, exec (.clear F) s = .next t ∧ (t.fifo F).clr = false ∧
      ∃ u, Runs (w + r) (t.withLines
          (List.replicate w (lineOf (.wnop F) none) ++ List.replicate r (lineOf (.rnop F) none))) u ∧
        ((u.fifo F).inClearWindow = true ↔ w < (s.fifo F).wsync.length + 1 ∨ r < (s.fifo F).wsync.length + 1))

/-- Rule R95: a rise of `clr` outside reset makes the CLEAR step of the period, at its start; a level that stays high
repeats nothing. That a rise is refused while a running sequence drives the instance, and the premise that none does, are
the model's reading (log entries 10 and 15). -/
def Obligations.ClrRiseClears : Prop :=
  ∀ (F : Inst) (s : State) (rest : List Input), s.inputs = .clr F true :: rest → s.rst = false →
    ((s.fifo F).clr = false → secondDriver (.clear F) s = none →
      ∃ t, step s = .next t ∧ t.fifo F = (s.fifo F).cleared.raiseClr ∧
        t.history = s.history ++ [.cleared F (s.fifo F).occTrue]) ∧
    ((s.fifo F).clr = false → ∀ q, secondDriver (.clear F) s = some q → step s = .refused q) ∧
    ((s.fifo F).clr = true → step s = .next (s.setInputs rest))

/-! The display port. -/

/-- Rules R171 and R172, TICK: its word; the line selected and the palette's share of the glyph's column from the values
before the edge; then the column and the mask move on, both starting again after column 7; nothing else changes. -/
def Obligations.TickRule : Prop :=
  ∀ s : State, s.rst = false →
    decode (.d 0b01#2) = .tick ∧
    ∃ t, exec .tick s = .next t ∧
      t.disp.sel = s.disp.mask ∧
      t.disp.red = (if s.disp.color = 1 then 0x00#8 else Config.glyphRom s.disp.glyph s.disp.col.toFin) ∧
      t.disp.grn = (if s.disp.color = 0 then 0x00#8 else Config.glyphRom s.disp.glyph s.disp.col.toFin) ∧
      t.disp.col.toNat = (if s.disp.col.toNat = 7 then 0 else s.disp.col.toNat + 1) ∧
      t.disp.mask = (if s.disp.col.toNat = 7 then 0x01#8 else s.disp.mask <<< 1) ∧
      t.disp.glyph = s.disp.glyph ∧ t.disp.color = s.disp.color

/-- Rule R173, ADVANCE: its word; the glyph moves on, and after glyph 10 the colour does and the glyph starts again; the
scan is not touched. -/
def Obligations.AdvanceRule : Prop :=
  ∀ s : State, s.rst = false →
    decode (.d 0b10#2) = .advance ∧
    ∃ t, exec .advance s = .next t ∧
      t.disp.glyph.val = (if s.disp.glyph.val = 10 then 0 else s.disp.glyph.val + 1) ∧
      t.disp.color.val = (if s.disp.glyph.val = 10 then (s.disp.color.val + 1) % 3 else s.disp.color.val) ∧
      t.disp.col = s.disp.col ∧ t.disp.mask = s.disp.mask ∧ t.disp.sel = s.disp.sel ∧ t.disp.red = s.disp.red ∧
      t.disp.grn = s.disp.grn

/-- Rule R174, TICK_ADVANCE: its word; it completes, drives the glyph and colour from before the edge, and equals TICK
followed by ADVANCE. -/
def Obligations.TickAdvanceRule : Prop :=
  ∀ s : State, s.rst = false →
    decode (.d 0b11#2) = .tickAdvance ∧
    ∃ t, exec .tickAdvance s = .next t ∧
      t.disp.sel = s.disp.mask ∧
      t.disp.red = (if s.disp.color = 1 then 0x00#8 else Config.glyphRom s.disp.glyph s.disp.col.toFin) ∧
      t.disp.grn = (if s.disp.color = 0 then 0x00#8 else Config.glyphRom s.disp.glyph s.disp.col.toFin) ∧
      ∃ u, exec .tick s = .next u ∧ exec .advance u = .next t

/-- Rule R175, DNOP: its word; no register changes. -/
def Obligations.DnopRule : Prop :=
  ∀ s : State, decode (.d 0b00#2) = .dnop ∧ exec .dnop s = .next s

/-- The frame of the display port: both FIFO instances with every byte of storage, the history and everything around are
unchanged (rule R2: the blocks share no state). -/
def Obligations.DisplayPortFrame : Prop :=
  ∀ (i : Instr) (s t : State), i.port = .d → exec i s = .next t →
    s.SameOutsideDisplay t ∧ ∀ F a, memRead (t.fifo F).mem a = memRead (s.fifo F).mem a

/-- Rule R177: from any column, the (n+1)-th of successive TICKs drives line (col + n) mod 8 with that column of the
active glyph in the active colour, and the scan is then at column (col + n + 1) mod 8 with its own mask. -/
def Obligations.ColumnScanCycle : Prop :=
  ∀ (s : State) (n : Nat), s.rst = false → s.disp.Sound →
    ∃ t, Runs (n + 1) (s.withLines (List.replicate (n + 1) (lineOf .tick none))) t ∧
      t.disp.sel = 1#8 <<< ((s.disp.col.toNat + n) % 8) ∧
      (let b := Config.glyphRom s.disp.glyph (Fin.ofNat 8 (s.disp.col.toNat + n))
       t.disp.red = (if s.disp.color = 1 then 0x00#8 else b) ∧ t.disp.grn = (if s.disp.color = 0 then 0x00#8 else b)) ∧
      t.disp.col.toNat = (s.disp.col.toNat + n + 1) % 8 ∧ t.disp.mask = 1#8 <<< t.disp.col.toNat ∧
      t.disp.glyph = s.disp.glyph ∧ t.disp.color = s.disp.color

/-- Rule R178: after n ADVANCEs from (0, 0) the glyph is n mod 11 and the colour (n div 11) mod 3; so (0, 0) comes back
after 33 and not before. No sequence of the mainline drives port D meanwhile (rule R275). -/
def Obligations.DisplayCursorCycle : Prop :=
  ∀ (s : State) (n : Nat), s.rst = false → s.drives .d = false → s.disp.glyph = 0 → s.disp.color = 0 →
    ∃ t, Runs n (s.withLines (List.replicate n (lineOf .advance none))) t ∧
      t.disp.glyph.val = n % 11 ∧ t.disp.color.val = n / 11 % 3 ∧
      (t.disp.glyph = 0 ∧ t.disp.color = 0 ↔ n % 33 = 0)

/-! The whole machine. -/

/-- Rules R240 and R246: there is no fault outcome (the type of faults is empty, log entry 26), and the only other
outcomes are the listed refusals. A command is refused only during reset, in its instance's clear window if it is PUSH
or POP, or if it is a POP of a slot without a value, which no sound instance makes. A step of the machine is refused only
as one of those (during reset also where `rst` rises beside a `clr` that is 1), as a CLEAR beside a PUSH, POP or sequence
(R246(a)), as a second driver (R246(b)), or as a sequence before the UART is configured (R246(d)). -/
def Obligations.RefusalsAreTheListedOnes : Prop :=
  (∀ (i : Instr) (s : State) (q : Refusal), exec i s = .refused q →
    (q = .commandDuringReset ∧ s.rst = true) ∨
    (∃ F, q = .clearWindow F ∧ s.rst = false ∧ (s.fifo F).inClearWindow = true ∧ ((∃ b, i = .push F b) ∨ i = .pop F)) ∨
    (∃ F, q = .unwrittenSlot F ∧ i = .pop F ∧ ¬ (s.fifo F).Sound)) ∧
  (∀ (s : State) (q : Refusal), step s = .refused q →
    (q = .commandDuringReset ∧ (s.rst = true ∨ s.rx.clr = true ∨ s.tx.clr = true)) ∨
    (∃ F, q = .clearWindow F ∧ (s.fifo F).inClearWindow = true) ∨
    (∃ F, q = .unwrittenSlot F ∧ ¬ (s.fifo F).Sound) ∨
    (∃ F, q = .clearOverlap F) ∨ (∃ p, q = .twoDrivers p) ∨ (q = .notInitialised ∧ s.uart.ready = false))

/-- Rules R24, R25, R40, R41, R42: which commands can change the registers of each domain and of the display. -/
def Obligations.EveryRegisterHasItsWriter : Prop :=
  ∀ (i : Instr) (s t : State), exec i s = .next t →
    (∀ F, ((t.fifo F).mem ≠ (s.fifo F).mem ∨ (t.fifo F).wptr ≠ (s.fifo F).wptr ∨ (t.fifo F).wgray ≠ (s.fifo F).wgray) →
      i = .clear F ∨ ∃ b, i = .push F b) ∧
    (∀ F, (t.fifo F).rsync ≠ (s.fifo F).rsync → i.port = .w F ∨ i.port = .c F) ∧
    (∀ F, ((t.fifo F).rptr ≠ (s.fifo F).rptr ∨ (t.fifo F).rgray ≠ (s.fifo F).rgray) → i = .clear F ∨ i = .pop F) ∧
    (∀ F, (t.fifo F).wsync ≠ (s.fifo F).wsync → i.port = .r F ∨ i.port = .c F) ∧
    ((t.disp.glyph ≠ s.disp.glyph ∨ t.disp.color ≠ s.disp.color) → i = .advance ∨ i = .tickAdvance) ∧
    ((t.disp.col ≠ s.disp.col ∨ t.disp.mask ≠ s.disp.mask ∨ t.disp.sel ≠ s.disp.sel ∨ t.disp.red ≠ s.disp.red ∨
      t.disp.grn ≠ s.disp.grn) → i = .tick ∨ i = .tickAdvance)

/-- Rule R248: one command records at most one event: PUSH an overflow of its own byte, POP an underflow, CLEAR exactly
its clearing, the others none. -/
def Obligations.EventsOfOneCommand : Prop :=
  ∀ (i : Instr) (s t : State), exec i s = .next t →
    t.history = s.history ∧ (∀ F, i ≠ .clear F) ∨
    ∃ e, t.history = s.history ++ [e] ∧
      ((∃ F b, i = .push F b ∧ e = .overflow F b) ∨ (∃ F, i = .pop F ∧ e = .underflow F) ∨
       (∃ F, i = .clear F ∧ e = .cleared F (s.fifo F).occTrue))

/-- Every step keeps the invariants of both FIFO instances (rule R140) and of the display (rule R44). -/
def Obligations.StepKeepsSound : Prop :=
  ∀ s t : State, s.Sound → step s = .next t → t.Sound

/-- The state after reset meets the invariants, whatever the number of stages. -/
def Obligations.ResetIsSound : Prop :=
  ∀ n : Nat, (State.resetWith n).Sound

/-- Rule R140, (I1) to (I4), of every state reached from reset by any inputs, with any number of stages. -/
def Obligations.ReachableStatesMeetR140 : Prop :=
  ∀ (stages : Nat) (ins : List Input) (n : Nat) (t : State) (F : Inst),
    Runs n ((State.resetWith stages).setInputs ins) t →
    let f := t.fifo F
    f.wgray = gray f.wptr ∧ f.rgray = gray f.rptr ∧
    (∃ ages : List Nat, f.wsync = ages.map grayAt ∧ f.wgray = grayAt f.pushed.length ∧
      List.Pairwise (fun newer older => older ≤ newer) (f.pushed.length :: ages)) ∧
    (∃ ages : List Nat, f.rsync = ages.map grayAt ∧ f.rgray = grayAt f.delivered.length ∧
      List.Pairwise (fun newer older => older ≤ newer) (f.delivered.length :: ages)) ∧
    f.occR ≤ f.occTrue ∧ f.occTrue ≤ f.occW ∧ f.occW ≤ 127 ∧
    f.occTrue = f.pushed.length - f.delivered.length ∧
    (∀ k, k < f.occTrue → memRead f.mem ((f.rptr.toNat + k) % 128) = (f.pushed.drop f.delivered.length)[k]?) ∧
    f.mem.wf = true

/-- Rule R143: in every state reached from reset, what was delivered since the last CLEAR is the beginning of what was
effectively pushed since it, and nothing is delivered that was not pushed. -/
def Obligations.DeliveredIsTheBeginningOfPushed : Prop :=
  ∀ (stages : Nat) (ins : List Input) (n : Nat) (t : State) (F : Inst),
    Runs n ((State.resetWith stages).setInputs ins) t → (t.fifo F).delivered <+: (t.fifo F).pushed

/-- Rule R141: the flags are safe, and exact for the seen occupancies. -/
def Obligations.FlagsAreSafe : Prop :=
  ∀ f : Fifo, f.Sound →
    (f.full = false → f.occTrue ≤ 126) ∧
    (f.empty = false → 1 ≤ f.occTrue ∧ memRead f.mem f.rptr.toNat = f.pushed[f.delivered.length]? ∧
      (f.pushed[f.delivered.length]?).isSome = true) ∧
    (f.full = true ↔ f.occW = 127) ∧ (f.empty = true ↔ f.occR = 0)

/-- Rule R71: what each domain sees is the image of a count the other's cursor has reached, and no later one; so stale
views are conservative. -/
def Obligations.StaleViewsAreConservative : Prop :=
  ∀ f : Fifo, f.Sound →
    (∃ k, k ≤ f.delivered.length ∧ f.rseen = grayAt k ∧ f.rgray = grayAt f.delivered.length) ∧
    (∃ k, k ≤ f.pushed.length ∧ f.wseen = grayAt k ∧ f.wgray = grayAt f.pushed.length) ∧
    f.occR ≤ f.occTrue ∧ f.occTrue ≤ f.occW ∧ f.occW ≤ 127 ∧
    f.occTrue = f.pushed.length - f.delivered.length

/-- POP of a sound instance, outside reset and the clear window, always completes: the slot it would read holds the
oldest undelivered byte, which is what it delivers (rules R123, R141). -/
def Obligations.PopCompletesWhenSound : Prop :=
  ∀ (F : Inst) (s : State), (s.fifo F).Sound → s.rst = false → (s.fifo F).inClearWindow = false →
    ∃ t, exec (.pop F) s = .next t ∧
      ((s.fifo F).empty = false → (t.fifo F).result = (s.fifo F).pushed[(s.fifo F).delivered.length]? ∧
        (t.fifo F).delivered.length = (s.fifo F).delivered.length + 1)

/-- Rule R145: the document's capacity invariant as written, wherever every stage of each synchroniser holds the other
domain's cursor as it is (in every state when S = 0), which is so right after `SETTLE` whatever the draws; and in every
state over the seen occupancies. -/
def Obligations.FlagsExactWhenSettled : Prop :=
  (∀ f : Fifo, f.Sound → (∀ g ∈ f.wsync, g = f.wgray) → (∀ g ∈ f.rsync, g = f.rgray) →
    (f.full = true ↔ f.occTrue = 127) ∧ (f.empty = true ↔ f.occTrue = 0)) ∧
  (∀ (F : Inst) (s : State), s.rst = false → (s.fifo F).Sound →
    ∃ t, Runs (2 * ((s.fifo F).wsync.length + 1)) (s.withLines (assemble (s.fifo F).wsync.length (.settle F))) t ∧
      (∀ g ∈ (t.fifo F).wsync, g = (t.fifo F).wgray) ∧ (∀ g ∈ (t.fifo F).rsync, g = (t.fifo F).rgray) ∧
      (t.fifo F).wptr = (s.fifo F).wptr ∧ (t.fifo F).rptr = (s.fifo F).rptr ∧ (t.fifo F).mem = (s.fifo F).mem) ∧
  (∀ f : Fifo, f.Sound → (f.full = true → f.occW = 127) ∧ (f.empty = true → f.occR = 0))

/-- Rule R142, at most S + 1 edges: after S + 1 RNOPs with any draws every stage of `wsync` holds the write cursor's
image, and after S + 1 WNOPs every stage of `rsync` the read cursor's. These are the halves of `SETTLE` (rule R104). -/
def Obligations.SettledAfterEnoughEdges : Prop :=
  ∀ (F : Inst) (s : State) (ds : List (Option Draw)), s.rst = false →
    (ds.length = (s.fifo F).wsync.length + 1 →
      ∃ t, Runs ds.length (s.withLines (ds.map (lineOf (.rnop F)))) t ∧
        (t.fifo F).wsync.length = (s.fifo F).wsync.length ∧ (∀ g ∈ (t.fifo F).wsync, g = (s.fifo F).wgray) ∧
        (t.fifo F).wgray = (s.fifo F).wgray) ∧
    (ds.length = (s.fifo F).rsync.length + 1 →
      ∃ t, Runs ds.length (s.withLines (ds.map (lineOf (.wnop F)))) t ∧
        (t.fifo F).rsync.length = (s.fifo F).rsync.length ∧ (∀ g ∈ (t.fifo F).rsync, g = (s.fifo F).rgray) ∧
        (t.fifo F).rgray = (s.fifo F).rgray)

/-- Rule R142, no earlier than S edges: after fewer than S RNOPs the write cursor as domain R sees it is still a value
that was in the synchroniser before them; the same for WNOPs and the read cursor. -/
def Obligations.NothingSeenBeforeSEdges : Prop :=
  ∀ (F : Inst) (s : State) (ds : List (Option Draw)), s.rst = false →
    (ds.length < (s.fifo F).wsync.length →
      ∃ t, Runs ds.length (s.withLines (ds.map (lineOf (.rnop F)))) t ∧
        (s.fifo F).wsync[(s.fifo F).wsync.length - 1 - ds.length]? = some (t.fifo F).wseen) ∧
    (ds.length < (s.fifo F).rsync.length →
      ∃ t, Runs ds.length (s.withLines (ds.map (lineOf (.wnop F)))) t ∧
        (s.fifo F).rsync[(s.fifo F).rsync.length - 1 - ds.length]? = some (t.fifo F).rseen)

/-- Conflict C2, vector B5: with S = 2 the machine does show `empty = 1` while a byte is held, right after a PUSH from
reset. -/
def Obligations.EmptyLagsBehindAPush : Prop :=
  ∃ t, Runs 1 (State.reset.withLines [lineOf (.push .rx 0x48#8) none]) t ∧ t.rx.empty = true ∧ t.rx.occTrue = 1

/-- Rule R144: bytes pushed with no POP between into an empty settled buffer: the first 127 are kept in order, every
later one is dropped with its event, whatever the draws. No sequence drives the port meanwhile (rule R275). -/
def Obligations.OverflowKeepsTheOldest : Prop :=
  ∀ (F : Inst) (s : State) (bs : List (Byte × Option Draw)), s.rst = false → (s.fifo F).inClearWindow = false →
    s.drives (.w F) = false →
    (s.fifo F).Sound → (s.fifo F).Settled → (s.fifo F).occTrue = 0 →
    ∃ t, Runs bs.length (s.withLines (bs.map fun p => lineOf (.push F p.1) p.2)) t ∧
      (t.fifo F).pushed = (s.fifo F).pushed ++ (bs.take 127).map Prod.fst ∧
      t.history = s.history ++ (bs.drop 127).map fun p => .overflow F p.1

/-- Rule R23: `gray` is a bijection with inverse `ungray`, `ungray` meets its recurrence, successive images differ in
exactly one bit (the wrap included), and the values the rule lists. -/
def Obligations.GrayCode : Prop :=
  (∀ b : Cursor, gray b = b ^^^ (b >>> 1)) ∧
  (∀ b : Cursor, ungray (gray b) = b) ∧ (∀ g : Cursor, gray (ungray g) = g) ∧
  (∀ g : Cursor, (ungray g).getLsbD 6 = g.getLsbD 6) ∧
  (∀ (g : Cursor) (i : Fin 6), (ungray g).getLsbD i = (g.getLsbD i ^^ (ungray g).getLsbD (i + 1))) ∧
  (∀ b : Cursor, ∃ i : Fin 7, gray b ^^^ gray (b + 1#7) = 1#7 <<< i.val) ∧
  [0, 1, 2, 3, 4, 5, 6, 7, 8, 15, 16, 31, 32, 63, 64, 65, 126, 127].map (fun n => (gray (BitVec.ofNat 7 n)).toNat) =
    [0x00, 0x01, 0x03, 0x02, 0x06, 0x07, 0x05, 0x04, 0x0C, 0x08, 0x18, 0x10, 0x30, 0x20, 0x60, 0x61, 0x41, 0x40]

/-! Commands presented at one instant (rules R102, R246). -/

/-- Two commands on one port at one instant, and a PUSH or POP with a CLEAR of the same instance, are refused. -/
def Obligations.ForbiddenCombinationsAreRefused : Prop :=
  ∀ (s : State) (rest : List Input) (a b : Line), s.inputs = .together [a, b] :: rest →
    (a.word.port = b.word.port → step s = .refused (.twoDrivers a.word.port)) ∧
    (∀ F, (a.word = .c F 1#1 ∧ (b.word = .r F 1#1 ∨ ∃ x : Byte, b.word = .w F (1#1 ++ x)) ∨
           b.word = .c F 1#1 ∧ (a.word = .r F 1#1 ∨ ∃ x : Byte, a.word = .w F (1#1 ++ x))) →
      step s = .refused (.clearOverlap F))

/-- Rules R246, R275 and U8, a line beside running sequences. A PUSH on a port that a part of some agent's sequence
drives is refused; so is a POP (on TX.R where that part is its agent's next one), and an ADVANCE while the mainline has
one to make; a CLEAR is refused while a sequence drives a port of its instance (rule R276). Which parts count while a
sequence runs is the model's reading (log entry 15). Idle commands and TICK are never second drivers, and with no
sequence running no command is. `clear_receive` does not clear RX while the clear pin of RX is held at 1 by another agent
(rule R246(b)), nor while the RDA drain runs (rules R206, R276). -/
def Obligations.SecondDriversAreRefused : Prop :=
  (∀ (s : State) (l : Line) (rest : List Input) (a : Agent) (t : Task), s.inputs = .line l :: rest → t ∈ s.tasks a →
    (∀ F b, decode l.word = .push F b → t.port = some (.w F) → step s = .refused (.twoDrivers (.w F))) ∧
    (decode l.word = .pop .rx → t.port = some (.r .rx) → step s = .refused (.twoDrivers (.r .rx))) ∧
    (decode l.word = .pop .tx → t.port = some (.r .tx) → (s.tasks a).head? = some t →
      step s = .refused (.twoDrivers (.r .tx))) ∧
    (decode l.word = .advance ∨ decode l.word = .tickAdvance → t.port = some .d → step s = .refused (.twoDrivers .d)) ∧
    (decode l.word = .clear .rx → t.port = some (.w .rx) ∨ t.port = some (.r .rx) ∨ t.port = some (.c .rx) →
      step s = .refused (.clearOverlap .rx) ∨ step s = .refused (.twoDrivers (.c .rx))) ∧
    (decode l.word = .clear .tx → t.port = some (.w .tx) ∨ (t.port = some (.r .tx) ∧ (s.tasks a).head? = some t) →
      step s = .refused (.clearOverlap .tx))) ∧
  (∀ (i : Instr) (s : State),
    ((∃ F, i = .wnop F ∨ i = .rnop F ∨ i = .cnop F) ∨ i = .dnop ∨ i = .tick → secondDriver i s = none) ∧
    ((∀ a, s.tasks a = []) → secondDriver i s = none)) ∧
  (∀ (s : State) (rest : List Input) (d : Option Draw) (more : List Task),
    s.inputs = .run .main d :: rest → s.main = .clearRx :: more →
    (s.rx.clr = true → step s = .refused (.twoDrivers (.c .rx))) ∧
    (s.rda ≠ [] → step s = .refused (.clearOverlap .rx) ∨ step s = .refused (.twoDrivers (.c .rx))))

/-! The transport's sequences (file 42), one step at a time. -/

/-- Calls of the mainline and interrupts. With the UART not configured no sequence and no handler starts (rule R246(d)).
With it configured, the agent has the parts of the sequence to run after those it still has (rules R201, R247, R248; that
every start is kept is the model's choice, log entry 28; that `rst` is not asked is too, log entry 40). No drain starts in
the clear window of RX (rule R276); THRE does not fire before a byte is loaded (rule R210), and nothing changes then (the
flag is log entry 20). The timer is one TICK (rule R247), and needs no configuration. -/
def Obligations.SequencesStartInTurn : Prop :=
  (∀ (s : State) (rest : List Input) (c : Call), s.inputs = .call c :: rest →
    (s.uart.ready = false → step s = .refused .notInitialised) ∧
    (s.uart.ready = true →
      step s = .next ((s.setInputs rest).setTasks .main (s.main ++ callTasks Config.kickPolicy c)))) ∧
  (∀ (s : State) (rest : List Input) (q : Irq), s.inputs = .irq q :: rest →
    (q = .timer → step s = exec .tick (s.setInputs rest)) ∧
    (q ≠ .timer → s.uart.ready = false → step s = .refused .notInitialised) ∧
    (s.uart.ready = true →
      (q = .rda → s.rx.inClearWindow = true → step s = .refused (.clearWindow .rx)) ∧
      (q = .rda → s.rx.inClearWindow = false →
        step s = .next ((s.setInputs rest).setTasks .rda (s.rda ++ [.drain]))) ∧
      (q = .thre → s.uart.thrArmed = false → step s = .next (s.setInputs rest)) ∧
      (q = .thre → s.uart.thrArmed = true →
        step s = .next (((s.setInputs rest).setTasks .thre (s.thre ++ [.pump])).setUart
          { s.uart with thrArmed := false })) ∧
      (q = .err → step s = .next ((s.setInputs rest).setTasks .err (s.err ++ [.lsrRead, .discardRx])))))

/-- Rule R203: one pass of `send` with a byte left. Full: TX is what one WNOP leaves, and the loop stays where it is.
Not full: the byte goes in, it is never dropped, and the rest of the loop follows, with a kick before it under
`after_each_byte`. -/
def Obligations.SendNeverDrops : Prop :=
  ∀ (s : State) (rest : List Input) (d : Option Draw) (k : KickPolicy) (b : Byte) (bs : List Byte) (more : List Task),
    s.inputs = .run .main d :: rest → s.main = .send k (b :: bs) :: more → s.rst = false →
    s.tx.inClearWindow = false → s.handlerDrives (.w .tx) = false →
    ∃ t, step s = .next t ∧ t.history = s.history ∧ t.rx = s.rx ∧ t.disp = s.disp ∧
      (s.tx.full = true → t.main = s.main ∧ t.tx.wptr = s.tx.wptr ∧ t.tx.mem = s.tx.mem ∧ t.tx.pushed = s.tx.pushed ∧
        ∃ u, exec (.wnop .tx) ((s.setInputs rest).setLineDraw d) = .next u ∧ t.tx = u.tx) ∧
      (s.tx.full = false → t.tx.pushed = s.tx.pushed ++ [b] ∧
        t.main = (if k = .afterEachByte then [.kick] else []) ++ .send k bs :: more)

/-- Rule R203: with room for all of them as domain W sees it, the loop of `send` under `after_all_bytes` puts every byte
into TX in order, one step a byte, whatever the draws. -/
def Obligations.SendEnqueuesAllWhenThereIsRoom : Prop :=
  ∀ (s : State) (ds : List (Option Draw)) (bs : List Byte) (more : List Task),
    s.inputs = ds.map (.run .main) → ds.length = bs.length → s.main = .send .afterAllBytes bs :: more → s.rst = false →
    s.tx.inClearWindow = false → s.handlerDrives (.w .tx) = false → s.tx.Sound → s.tx.occW + bs.length ≤ 127 →
    ∃ t, Runs bs.length s t ∧ t.tx.pushed = s.tx.pushed ++ bs ∧ t.history = s.history ∧
      t.main = .send .afterAllBytes [] :: more

/-- Rule R208: `print_line` is two sends, of the bytes before the first 0x00 and of 0x0D 0x0A, under either kick policy;
"Hi" followed by its terminator is sent as the four bytes of the document's scenario. -/
def Obligations.PrintLineIsTwoSends : Prop :=
  ∀ (k : KickPolicy) (text : List Byte),
    (∃ r, callTasks k (.printLine text) = sendTasks k (lineText text) ++ sendTasks k [0x0D#8, 0x0A#8] ++ [.done r]) ∧
    (∀ b ∈ lineText text, b ≠ 0x00#8) ∧ lineText text <+: text ∧
    (∀ pre post, text = pre ++ 0x00#8 :: post → (∀ b ∈ pre, b ≠ 0x00#8) → lineText text = pre) ∧
    lineText [0x48#8, 0x69#8, 0x00#8] ++ lineEnd = [0x48#8, 0x69#8, 0x0D#8, 0x0A#8]

/-- Rule R204: the kick pops exactly one byte of TX and hands it to the transmitter if the transmitter is idle and TX is
not empty, and does nothing otherwise; with S at least 1 each kick that did nothing is then left to be repeated (by the
kicker, log entry 38). That the POP and the hand-over are one step is the model's choice (log entry 39). -/
def Obligations.KickSendsOneByte : Prop :=
  ∀ (s : State) (rest : List Input) (d : Option Draw) (more : List Task),
    s.inputs = .run .main d :: rest → s.main = .kick :: more → s.rst = false → s.tx.inClearWindow = false →
    s.handlerDrives (.r .tx) = false → s.tx.Sound →
    ∃ t, step s = .next t ∧ t.main = more ∧ t.history = s.history ∧ t.rx = s.rx ∧
      (s.uart.txIdle = true → s.tx.empty = false → t.kicker = s.kicker ∧
        ∃ b, s.tx.pushed[s.tx.delivered.length]? = some b ∧ t.tx.delivered = s.tx.delivered ++ [b] ∧
          t.uart.txOut = s.uart.txOut ++ [b]) ∧
      (s.uart.txIdle = false ∨ s.tx.empty = true → t.tx = s.tx ∧ t.uart = s.uart ∧
        t.kicker = if s.tx.wsync = [] then s.kicker else s.kicker ++ [.rekick])

/-- Rule R204, the repetition: the kicker sends one byte and is done once the transmitter is idle and TX is not empty;
until then each of its steps is one RNOP of TX (the model's reading of program P4, log entry 38) and it stays. That the
POP and the hand-over are one step is the model's choice (log entry 39). -/
def Obligations.RepeatedKickWaitsForTheByte : Prop :=
  ∀ (s : State) (rest : List Input) (d : Option Draw) (more : List Task),
    s.inputs = .run .kicker d :: rest → s.kicker = .rekick :: more → s.rst = false → s.tx.inClearWindow = false →
    s.handlerDrives (.r .tx) = false → s.tx.Sound →
    ∃ t, step s = .next t ∧ t.history = s.history ∧ t.rx = s.rx ∧ t.main = s.main ∧
      (s.uart.txIdle = true → s.tx.empty = false → t.kicker = more ∧
        ∃ b, s.tx.pushed[s.tx.delivered.length]? = some b ∧ t.tx.delivered = s.tx.delivered ++ [b] ∧
          t.uart.txOut = s.uart.txOut ++ [b]) ∧
      (s.uart.txIdle = false ∨ s.tx.empty = true → t.kicker = s.kicker ∧ t.uart = s.uart ∧
        ∃ u, exec (.rnop .tx) ((s.setInputs rest).setLineDraw d) = .next u ∧ t.tx = u.tx)

/-- Rule R210: one pass of the THRE pump: a byte of TX to the transmitter while TX is not empty, then the loop again; at
empty the handler ends and nothing is loaded. That the POP and the hand-over are one step is the model's choice (log entry
39). -/
def Obligations.PumpLoadsUntilEmpty : Prop :=
  ∀ (s : State) (rest : List Input) (d : Option Draw) (more : List Task),
    s.inputs = .run .thre d :: rest → s.thre = .pump :: more → s.rst = false → s.tx.inClearWindow = false → s.tx.Sound →
    ∃ t, step s = .next t ∧ t.history = s.history ∧ t.rx = s.rx ∧
      (s.tx.empty = false → t.thre = s.thre ∧
        ∃ b, s.tx.pushed[s.tx.delivered.length]? = some b ∧ t.tx.delivered = s.tx.delivered ++ [b] ∧
          t.uart.txOut = s.uart.txOut ++ [b]) ∧
      (s.tx.empty = true → t.thre = more ∧ t.tx = s.tx ∧ t.uart = s.uart)

/-- Rules R202, R205 and R209: one pass of the drain, by the RDA handler or as the first phase of the mainline's
`receive`: the oldest hardware byte is read; at full it is dropped with its event and the loop ends, the later bytes
staying in the hardware; else it is pushed and the loop goes on; with no byte there the loop ends. That the read and the
PUSH are one step is the model's choice (log entry 39). -/
def Obligations.DrainStep : Prop :=
  ∀ (s : State) (rest : List Input) (d : Option Draw) (a : Agent) (more : List Task),
    (a = .rda ∨ a = .main ∧ s.handlerDrives (.w .rx) = false) →
    s.inputs = .run a d :: rest → s.tasks a = .drain :: more → s.rst = false → s.rx.inClearWindow = false →
    ∃ t, step s = .next t ∧ t.tx = s.tx ∧ t.uart.rxFifo = s.uart.rxFifo.tail ∧
      (∀ b bs, s.uart.rxFifo = b :: bs → s.rx.full = true →
        t.history = s.history ++ [.overflow .rx b] ∧ t.rx.pushed = s.rx.pushed ∧ t.tasks a = more) ∧
      (∀ b bs, s.uart.rxFifo = b :: bs → s.rx.full = false →
        t.history = s.history ∧ t.rx.pushed = s.rx.pushed ++ [b] ∧ t.tasks a = s.tasks a) ∧
      (s.uart.rxFifo = [] → t.history = s.history ∧ t.rx = s.rx ∧ t.tasks a = more)

/-- Rule R205: one pass of the copy loop of `receive`: at its capacity or at empty it returns what it has and never
blocks; else it takes the oldest byte and goes on. -/
def Obligations.ReceiveCopyStep : Prop :=
  ∀ (s : State) (rest : List Input) (d : Option Draw) (cap : Nat) (got : List Byte) (more : List Task),
    s.inputs = .run .main d :: rest → s.main = .copy cap got :: more → s.rst = false → s.rx.inClearWindow = false →
    s.handlerDrives (.r .rx) = false → s.rx.Sound →
    ∃ t, step s = .next t ∧ t.history = s.history ∧ t.tx = s.tx ∧
      (cap ≤ got.length ∨ s.rx.empty = true →
        t.returned = some (.bytes got) ∧ t.main = more ∧ t.rx.delivered = s.rx.delivered) ∧
      (got.length < cap → s.rx.empty = false →
        ∃ b, s.rx.pushed[s.rx.delivered.length]? = some b ∧ t.rx.delivered = s.rx.delivered ++ [b] ∧
          t.main = .copy cap (got ++ [b]) :: more)

/-- Rule R207: `has_pending_receive_data` answers whether RX or the hardware holds a visible byte and changes neither;
and right after `clear_receive`, with at most one byte in the hardware before, no drain running and the clear pin of RX
not held by another agent, the answer is no. -/
def Obligations.ClearReceiveThenNothingPending : Prop :=
  (∀ (s : State) (rest : List Input) (d : Option Draw) (more : List Task),
    s.inputs = .run .main d :: rest → s.main = .pollPending :: more →
    step s = .next ((((s.setInputs rest).setLineDraw d).giveBack
      (.pending (!s.rx.empty || !s.uart.rxFifo.isEmpty))).setTasks .main more)) ∧
  (∀ (s : State) (rest : List Input),
    s.inputs = .call .clearReceive :: .run .main none :: .run .main none :: .call .hasPending :: .run .main none :: rest →
    s.uart.ready = true → s.main = [] → s.rda = [] → s.handlerDrives (.c .rx) = false → s.rst = false → s.rx.clr = false →
    s.uart.rxFifo.length ≤ 1 →
    ∃ t, Runs 5 s t ∧ t.returned = some (.pending false) ∧ t.rx.empty = true ∧ t.inputs = rest ∧ t.main = [])

/-- Rule R211: the ERR duty clears the line status and discards one byte of the hardware; neither FIFO is touched. With
no byte in the hardware nothing is taken, the model's choice (log entry 27). -/
def Obligations.ErrDutyTouchesNoFifo : Prop :=
  ∀ (s : State) (rest : List Input), s.inputs = .irq .err :: .run .err none :: .run .err none :: rest →
    s.uart.ready = true → s.err = [] →
    ∃ t, Runs 3 s t ∧ t.rx = s.rx ∧ t.tx = s.tx ∧ t.disp = s.disp ∧ t.uart.lineError = false ∧
      t.uart.rxFifo = s.uart.rxFifo.tail ∧ t.history = s.history ∧ t.err = [] ∧ t.inputs = rest
end

