-- ==== Sys2Proof/Laws/Memory.lean ====
section
/-! SUPPORT. The laws of a FIFO instance's storage: read after write, and that a write keeps the canonical form. -/

namespace Sys2Proof.Machine

theorem memRead_memWrite_same (m : Memory) (i : Nat) (v : Byte) : memRead (memWrite m i v) i = some v := by
  induction m with
  | nil => simp [memWrite, memRead]
  | cons c m ih =>
    obtain ⟨a, b⟩ := c
    simp only [memWrite]
    split
    · simp [memRead]
    · split
      · simp [memRead]
      · rename_i h
        simp [memRead, Ne.symm h, ih]

theorem memRead_memWrite_other (m : Memory) {i j : Nat} (v : Byte) (h : j ≠ i) :
    memRead (memWrite m i v) j = memRead m j := by
  induction m with
  | nil => simp [memWrite, memRead, Ne.symm h]
  | cons c m ih =>
    obtain ⟨a, b⟩ := c
    simp only [memWrite]
    split
    · simp [memRead, Ne.symm h]
    · split
      · rename_i hia
        simp [memRead, Ne.symm h, ← hia]
      · simp [memRead, ih]

/-- A read after a write, at any slot. -/
theorem memRead_memWrite (m : Memory) (i j : Nat) (v : Byte) :
    memRead (memWrite m i v) j = if j = i then some v else memRead m j := by
  split
  · next h => subst h; exact memRead_memWrite_same m j v
  · next h => exact memRead_memWrite_other m v h

theorem Memory.wfFrom_mono {lo lo' : Nat} (m : Memory) (h : lo' ≤ lo) (hm : Memory.wfFrom lo m = true) :
    Memory.wfFrom lo' m = true := by
  cases m with
  | nil => rfl
  | cons c m =>
    simp only [Memory.wfFrom, Bool.and_eq_true, decide_eq_true_eq] at hm ⊢
    exact ⟨⟨by omega, hm.1.2⟩, hm.2⟩

theorem memWrite_wfFrom (m : Memory) {lo i : Nat} (v : Byte) (hm : Memory.wfFrom lo m = true) (hlo : lo ≤ i)
    (hi : i < Config.capacity) : Memory.wfFrom lo (memWrite m i v) = true := by
  induction m generalizing lo with
  | nil => simp [memWrite, Memory.wfFrom, hlo, hi]
  | cons c m ih =>
    obtain ⟨a, b⟩ := c
    simp only [Memory.wfFrom, Bool.and_eq_true, decide_eq_true_eq] at hm
    simp only [memWrite]
    split
    · next h => simp [Memory.wfFrom, hlo, hi, hm.1.2, hm.2]; omega
    · split
      · next h => subst h; simp [Memory.wfFrom, hlo, hi, hm.2]
      · simp only [Memory.wfFrom, Bool.and_eq_true, decide_eq_true_eq]
        exact ⟨hm.1, ih hm.2 (by omega)⟩

/-- A write of a slot keeps the canonical form. -/
theorem memWrite_wf (m : Memory) {i : Nat} (v : Byte) (hm : m.wf = true) (hi : i < Config.capacity) :
    Memory.wf (memWrite m i v) = true :=
  memWrite_wfFrom m v hm (Nat.zero_le i) hi

/-- Two storages in canonical form that read alike are equal. -/
theorem Memory.eq_of_wfFrom {m n : Memory} {lo : Nat} (hm : Memory.wfFrom lo m = true)
    (hn : Memory.wfFrom lo n = true) (h : ∀ i, memRead m i = memRead n i) : m = n := by
  have below : ∀ {k : Memory} {lo i : Nat}, Memory.wfFrom lo k = true → i < lo → memRead k i = none := by
    intro k
    induction k with
    | nil => intros; rfl
    | cons c k ih =>
      intro lo i hk hi
      simp only [Memory.wfFrom, Bool.and_eq_true, decide_eq_true_eq] at hk
      have : c.1 ≠ i := by omega
      simp [memRead, this, ih hk.2 (by omega : i < c.1 + 1)]
  induction m generalizing n lo with
  | nil =>
    cases n with
    | nil => rfl
    | cons d n => have := h d.1; simp [memRead] at this
  | cons c m ih =>
    cases n with
    | nil => have := h c.1; simp [memRead] at this
    | cons d n =>
      obtain ⟨a, b⟩ := c
      obtain ⟨a', b'⟩ := d
      simp only [Memory.wfFrom, Bool.and_eq_true, decide_eq_true_eq] at hm hn
      have ha : a = a' := by
        rcases Nat.lt_trichotomy a a' with hlt | heq | hgt
        · have := h a
          have h1 : a' ≠ a := by omega
          simp [memRead, h1, below hn.2 (by omega : a < a' + 1)] at this
        · exact heq
        · have := h a'
          have h1 : a ≠ a' := by omega
          simp [memRead, h1, below hm.2 (by omega : a' < a + 1)] at this
      subst ha
      have hb := h a
      simp [memRead] at hb
      subst hb
      congr 1
      refine ih hm.2 hn.2 fun i => ?_
      by_cases hi : a = i
      · subst hi; rw [below hm.2 (by omega), below hn.2 (by omega)]
      · have := h i; simpa [memRead, hi] using this

end Sys2Proof.Machine
end

