-- ==== Sys2Proof/Laws/State.lean ====
section
/-! SUPPORT. One lemma per field and update of the state, so that no later proof unfolds a record update. -/

namespace Sys2Proof.Machine

variable (s : State) (F G : Inst) (f pre post : Fifo) (d : Draw) (b : Byte) (e : Ghost) (u : Uart) (r : Ret)
  (a : Agent) (ts : List Task) (is : List Input) (od : Option Draw) (dd : Display) (lv : Bool)

/-! Choosing and replacing an instance. -/

@[simp] theorem State.fifo_rx : s.fifo .rx = s.rx := rfl
@[simp] theorem State.fifo_tx : s.fifo .tx = s.tx := rfl

@[simp] theorem State.fifo_setFifo_same : (s.setFifo F f).fifo F = f := by cases F <;> rfl

theorem State.fifo_setFifo_other (h : G ≠ F) : (s.setFifo F f).fifo G = s.fifo G := by
  cases F <;> cases G <;> first | rfl | exact absurd rfl h

@[simp] theorem State.setFifo_fifo : s.setFifo F (s.fifo F) = s := by cases F <;> rfl
@[simp] theorem State.setFifo_disp : (s.setFifo F f).disp = s.disp := by cases F <;> rfl
@[simp] theorem State.setFifo_rst : (s.setFifo F f).rst = s.rst := by cases F <;> rfl
@[simp] theorem State.setFifo_history : (s.setFifo F f).history = s.history := by cases F <;> rfl
@[simp] theorem State.setFifo_inputs : (s.setFifo F f).inputs = s.inputs := by cases F <;> rfl
@[simp] theorem State.setFifo_lineDraw : (s.setFifo F f).lineDraw = s.lineDraw := by cases F <;> rfl
@[simp] theorem State.setFifo_drawCount : (s.setFifo F f).drawCount = s.drawCount := by cases F <;> rfl
@[simp] theorem State.setFifo_uart : (s.setFifo F f).uart = s.uart := by cases F <;> rfl
@[simp] theorem State.setFifo_main : (s.setFifo F f).main = s.main := by cases F <;> rfl
@[simp] theorem State.setFifo_rda : (s.setFifo F f).rda = s.rda := by cases F <;> rfl
@[simp] theorem State.setFifo_thre : (s.setFifo F f).thre = s.thre := by cases F <;> rfl
@[simp] theorem State.setFifo_err : (s.setFifo F f).err = s.err := by cases F <;> rfl
@[simp] theorem State.setFifo_kicker : (s.setFifo F f).kicker = s.kicker := by cases F <;> rfl
@[simp] theorem State.setFifo_returned : (s.setFifo F f).returned = s.returned := by cases F <;> rfl

/-! What is pending, the line's draw, the display and the reset pin. -/

@[simp] theorem State.setInputs_fifo : (s.setInputs is).fifo G = s.fifo G := by cases G <;> rfl
@[simp] theorem State.setInputs_rx : (s.setInputs is).rx = s.rx := rfl
@[simp] theorem State.setInputs_tx : (s.setInputs is).tx = s.tx := rfl
@[simp] theorem State.setInputs_disp : (s.setInputs is).disp = s.disp := rfl
@[simp] theorem State.setInputs_rst : (s.setInputs is).rst = s.rst := rfl
@[simp] theorem State.setInputs_history : (s.setInputs is).history = s.history := rfl
@[simp] theorem State.setInputs_inputs : (s.setInputs is).inputs = is := rfl
@[simp] theorem State.setInputs_lineDraw : (s.setInputs is).lineDraw = s.lineDraw := rfl
@[simp] theorem State.setInputs_drawCount : (s.setInputs is).drawCount = s.drawCount := rfl
@[simp] theorem State.setInputs_uart : (s.setInputs is).uart = s.uart := rfl
@[simp] theorem State.setInputs_main : (s.setInputs is).main = s.main := rfl
@[simp] theorem State.setInputs_rda : (s.setInputs is).rda = s.rda := rfl
@[simp] theorem State.setInputs_thre : (s.setInputs is).thre = s.thre := rfl
@[simp] theorem State.setInputs_err : (s.setInputs is).err = s.err := rfl
@[simp] theorem State.setInputs_kicker : (s.setInputs is).kicker = s.kicker := rfl
@[simp] theorem State.setInputs_returned : (s.setInputs is).returned = s.returned := rfl

@[simp] theorem State.setLineDraw_fifo : (s.setLineDraw od).fifo G = s.fifo G := by cases G <;> rfl
@[simp] theorem State.setLineDraw_rx : (s.setLineDraw od).rx = s.rx := rfl
@[simp] theorem State.setLineDraw_tx : (s.setLineDraw od).tx = s.tx := rfl
@[simp] theorem State.setLineDraw_disp : (s.setLineDraw od).disp = s.disp := rfl
@[simp] theorem State.setLineDraw_rst : (s.setLineDraw od).rst = s.rst := rfl
@[simp] theorem State.setLineDraw_history : (s.setLineDraw od).history = s.history := rfl
@[simp] theorem State.setLineDraw_inputs : (s.setLineDraw od).inputs = s.inputs := rfl
@[simp] theorem State.setLineDraw_lineDraw : (s.setLineDraw od).lineDraw = od := rfl
@[simp] theorem State.setLineDraw_drawCount : (s.setLineDraw od).drawCount = s.drawCount := rfl
@[simp] theorem State.setLineDraw_uart : (s.setLineDraw od).uart = s.uart := rfl
@[simp] theorem State.setLineDraw_main : (s.setLineDraw od).main = s.main := rfl
@[simp] theorem State.setLineDraw_rda : (s.setLineDraw od).rda = s.rda := rfl
@[simp] theorem State.setLineDraw_thre : (s.setLineDraw od).thre = s.thre := rfl
@[simp] theorem State.setLineDraw_err : (s.setLineDraw od).err = s.err := rfl
@[simp] theorem State.setLineDraw_kicker : (s.setLineDraw od).kicker = s.kicker := rfl
@[simp] theorem State.setLineDraw_returned : (s.setLineDraw od).returned = s.returned := rfl

@[simp] theorem State.setDisp_fifo : (s.setDisp dd).fifo G = s.fifo G := by cases G <;> rfl
@[simp] theorem State.setDisp_rx : (s.setDisp dd).rx = s.rx := rfl
@[simp] theorem State.setDisp_tx : (s.setDisp dd).tx = s.tx := rfl
@[simp] theorem State.setDisp_disp : (s.setDisp dd).disp = dd := rfl
@[simp] theorem State.setDisp_rst : (s.setDisp dd).rst = s.rst := rfl
@[simp] theorem State.setDisp_history : (s.setDisp dd).history = s.history := rfl
@[simp] theorem State.setDisp_inputs : (s.setDisp dd).inputs = s.inputs := rfl
@[simp] theorem State.setDisp_lineDraw : (s.setDisp dd).lineDraw = s.lineDraw := rfl
@[simp] theorem State.setDisp_drawCount : (s.setDisp dd).drawCount = s.drawCount := rfl
@[simp] theorem State.setDisp_uart : (s.setDisp dd).uart = s.uart := rfl
@[simp] theorem State.setDisp_main : (s.setDisp dd).main = s.main := rfl
@[simp] theorem State.setDisp_rda : (s.setDisp dd).rda = s.rda := rfl
@[simp] theorem State.setDisp_thre : (s.setDisp dd).thre = s.thre := rfl
@[simp] theorem State.setDisp_err : (s.setDisp dd).err = s.err := rfl
@[simp] theorem State.setDisp_kicker : (s.setDisp dd).kicker = s.kicker := rfl
@[simp] theorem State.setDisp_returned : (s.setDisp dd).returned = s.returned := rfl

@[simp] theorem State.setRstPin_fifo : (s.setRstPin lv).fifo G = s.fifo G := by cases G <;> rfl
@[simp] theorem State.setRstPin_rx : (s.setRstPin lv).rx = s.rx := rfl
@[simp] theorem State.setRstPin_tx : (s.setRstPin lv).tx = s.tx := rfl
@[simp] theorem State.setRstPin_disp : (s.setRstPin lv).disp = s.disp := rfl
@[simp] theorem State.setRstPin_rst : (s.setRstPin lv).rst = lv := rfl
@[simp] theorem State.setRstPin_history : (s.setRstPin lv).history = s.history := rfl
@[simp] theorem State.setRstPin_inputs : (s.setRstPin lv).inputs = s.inputs := rfl
@[simp] theorem State.setRstPin_lineDraw : (s.setRstPin lv).lineDraw = s.lineDraw := rfl
@[simp] theorem State.setRstPin_drawCount : (s.setRstPin lv).drawCount = s.drawCount := rfl
@[simp] theorem State.setRstPin_uart : (s.setRstPin lv).uart = s.uart := rfl
@[simp] theorem State.setRstPin_main : (s.setRstPin lv).main = s.main := rfl
@[simp] theorem State.setRstPin_rda : (s.setRstPin lv).rda = s.rda := rfl
@[simp] theorem State.setRstPin_thre : (s.setRstPin lv).thre = s.thre := rfl
@[simp] theorem State.setRstPin_err : (s.setRstPin lv).err = s.err := rfl
@[simp] theorem State.setRstPin_kicker : (s.setRstPin lv).kicker = s.kicker := rfl
@[simp] theorem State.setRstPin_returned : (s.setRstPin lv).returned = s.returned := rfl

@[simp] theorem State.setInputs_self : s.setInputs s.inputs = s := rfl
@[simp] theorem State.setInputs_setInputs (js : List Input) : (s.setInputs is).setInputs js = s.setInputs js := rfl
@[simp] theorem State.setLineDraw_setLineDraw (od' : Option Draw) :
    (s.setLineDraw od).setLineDraw od' = s.setLineDraw od' := rfl
@[simp] theorem State.setDisp_setDisp (dd' : Display) : (s.setDisp dd).setDisp dd' = s.setDisp dd' := rfl

/-! Recording an event. -/

@[simp] theorem State.record_fifo : (s.record e).fifo G = s.fifo G := by cases G <;> rfl
@[simp] theorem State.record_rx : (s.record e).rx = s.rx := rfl
@[simp] theorem State.record_tx : (s.record e).tx = s.tx := rfl
@[simp] theorem State.record_disp : (s.record e).disp = s.disp := rfl
@[simp] theorem State.record_rst : (s.record e).rst = s.rst := rfl
@[simp] theorem State.record_history : (s.record e).history = s.history ++ [e] := rfl
@[simp] theorem State.record_inputs : (s.record e).inputs = s.inputs := rfl
@[simp] theorem State.record_lineDraw : (s.record e).lineDraw = s.lineDraw := rfl
@[simp] theorem State.record_drawCount : (s.record e).drawCount = s.drawCount := rfl
@[simp] theorem State.record_uart : (s.record e).uart = s.uart := rfl
@[simp] theorem State.record_main : (s.record e).main = s.main := rfl
@[simp] theorem State.record_rda : (s.record e).rda = s.rda := rfl
@[simp] theorem State.record_thre : (s.record e).thre = s.thre := rfl
@[simp] theorem State.record_err : (s.record e).err = s.err := rfl
@[simp] theorem State.record_kicker : (s.record e).kicker = s.kicker := rfl
@[simp] theorem State.record_returned : (s.record e).returned = s.returned := rfl

/-! The clocked steps. -/

@[simp] theorem State.edgeW_fifo_same : (s.edgeW F post).fifo F = (s.fifo F).bookW s.draw post := by cases F <;> rfl

theorem State.edgeW_fifo_other (h : G ≠ F) : (s.edgeW F post).fifo G = s.fifo G := by
  cases F <;> cases G <;> first | rfl | exact absurd rfl h

@[simp] theorem State.edgeW_disp : (s.edgeW F post).disp = s.disp := by cases F <;> rfl
@[simp] theorem State.edgeW_rst : (s.edgeW F post).rst = s.rst := by cases F <;> rfl
@[simp] theorem State.edgeW_history : (s.edgeW F post).history = s.history := by cases F <;> rfl
@[simp] theorem State.edgeW_inputs : (s.edgeW F post).inputs = s.inputs := by cases F <;> rfl
@[simp] theorem State.edgeW_lineDraw : (s.edgeW F post).lineDraw = s.lineDraw := by cases F <;> rfl
@[simp] theorem State.edgeW_drawCount : (s.edgeW F post).drawCount = s.drawCount + 1 := by cases F <;> rfl
@[simp] theorem State.edgeW_uart : (s.edgeW F post).uart = s.uart := by cases F <;> rfl
@[simp] theorem State.edgeW_main : (s.edgeW F post).main = s.main := by cases F <;> rfl
@[simp] theorem State.edgeW_rda : (s.edgeW F post).rda = s.rda := by cases F <;> rfl
@[simp] theorem State.edgeW_thre : (s.edgeW F post).thre = s.thre := by cases F <;> rfl
@[simp] theorem State.edgeW_err : (s.edgeW F post).err = s.err := by cases F <;> rfl
@[simp] theorem State.edgeW_kicker : (s.edgeW F post).kicker = s.kicker := by cases F <;> rfl
@[simp] theorem State.edgeW_returned : (s.edgeW F post).returned = s.returned := by cases F <;> rfl

@[simp] theorem State.edgeR_fifo_same : (s.edgeR F post).fifo F = (s.fifo F).bookR s.draw post := by cases F <;> rfl

theorem State.edgeR_fifo_other (h : G ≠ F) : (s.edgeR F post).fifo G = s.fifo G := by
  cases F <;> cases G <;> first | rfl | exact absurd rfl h

@[simp] theorem State.edgeR_disp : (s.edgeR F post).disp = s.disp := by cases F <;> rfl
@[simp] theorem State.edgeR_rst : (s.edgeR F post).rst = s.rst := by cases F <;> rfl
@[simp] theorem State.edgeR_history : (s.edgeR F post).history = s.history := by cases F <;> rfl
@[simp] theorem State.edgeR_inputs : (s.edgeR F post).inputs = s.inputs := by cases F <;> rfl
@[simp] theorem State.edgeR_lineDraw : (s.edgeR F post).lineDraw = s.lineDraw := by cases F <;> rfl
@[simp] theorem State.edgeR_drawCount : (s.edgeR F post).drawCount = s.drawCount + 1 := by cases F <;> rfl
@[simp] theorem State.edgeR_uart : (s.edgeR F post).uart = s.uart := by cases F <;> rfl
@[simp] theorem State.edgeR_main : (s.edgeR F post).main = s.main := by cases F <;> rfl
@[simp] theorem State.edgeR_rda : (s.edgeR F post).rda = s.rda := by cases F <;> rfl
@[simp] theorem State.edgeR_thre : (s.edgeR F post).thre = s.thre := by cases F <;> rfl
@[simp] theorem State.edgeR_err : (s.edgeR F post).err = s.err := by cases F <;> rfl
@[simp] theorem State.edgeR_kicker : (s.edgeR F post).kicker = s.kicker := by cases F <;> rfl
@[simp] theorem State.edgeR_returned : (s.edgeR F post).returned = s.returned := by cases F <;> rfl

/-! CLEAR. -/

@[simp] theorem State.clearFifo_fifo_same : (s.clearFifo F).fifo F = (s.fifo F).cleared := by cases F <;> rfl

theorem State.clearFifo_fifo_other (h : G ≠ F) : (s.clearFifo F).fifo G = s.fifo G := by
  cases F <;> cases G <;> first | rfl | exact absurd rfl h

@[simp] theorem State.clearFifo_disp : (s.clearFifo F).disp = s.disp := by cases F <;> rfl
@[simp] theorem State.clearFifo_rst : (s.clearFifo F).rst = s.rst := by cases F <;> rfl
@[simp] theorem State.clearFifo_history :
    (s.clearFifo F).history = s.history ++ [.cleared F (s.fifo F).occTrue] := by cases F <;> rfl
@[simp] theorem State.clearFifo_inputs : (s.clearFifo F).inputs = s.inputs := by cases F <;> rfl
@[simp] theorem State.clearFifo_lineDraw : (s.clearFifo F).lineDraw = s.lineDraw := by cases F <;> rfl
@[simp] theorem State.clearFifo_drawCount : (s.clearFifo F).drawCount = s.drawCount := by cases F <;> rfl
@[simp] theorem State.clearFifo_uart : (s.clearFifo F).uart = s.uart := by cases F <;> rfl
@[simp] theorem State.clearFifo_main : (s.clearFifo F).main = s.main := by cases F <;> rfl
@[simp] theorem State.clearFifo_rda : (s.clearFifo F).rda = s.rda := by cases F <;> rfl
@[simp] theorem State.clearFifo_thre : (s.clearFifo F).thre = s.thre := by cases F <;> rfl
@[simp] theorem State.clearFifo_err : (s.clearFifo F).err = s.err := by cases F <;> rfl
@[simp] theorem State.clearFifo_kicker : (s.clearFifo F).kicker = s.kicker := by cases F <;> rfl
@[simp] theorem State.clearFifo_returned : (s.clearFifo F).returned = s.returned := by cases F <;> rfl

/-! The UART, the agents and what they return. -/

@[simp] theorem State.setUart_fifo : (s.setUart u).fifo G = s.fifo G := by cases G <;> rfl
@[simp] theorem State.setUart_rx : (s.setUart u).rx = s.rx := rfl
@[simp] theorem State.setUart_tx : (s.setUart u).tx = s.tx := rfl
@[simp] theorem State.setUart_disp : (s.setUart u).disp = s.disp := rfl
@[simp] theorem State.setUart_rst : (s.setUart u).rst = s.rst := rfl
@[simp] theorem State.setUart_history : (s.setUart u).history = s.history := rfl
@[simp] theorem State.setUart_inputs : (s.setUart u).inputs = s.inputs := rfl
@[simp] theorem State.setUart_lineDraw : (s.setUart u).lineDraw = s.lineDraw := rfl
@[simp] theorem State.setUart_drawCount : (s.setUart u).drawCount = s.drawCount := rfl
@[simp] theorem State.setUart_uart : (s.setUart u).uart = u := rfl
@[simp] theorem State.setUart_main : (s.setUart u).main = s.main := rfl
@[simp] theorem State.setUart_rda : (s.setUart u).rda = s.rda := rfl
@[simp] theorem State.setUart_thre : (s.setUart u).thre = s.thre := rfl
@[simp] theorem State.setUart_err : (s.setUart u).err = s.err := rfl
@[simp] theorem State.setUart_kicker : (s.setUart u).kicker = s.kicker := rfl
@[simp] theorem State.setUart_returned : (s.setUart u).returned = s.returned := rfl
@[simp] theorem State.disarmThre_eq : s.disarmThre = s.setUart { s.uart with thrArmed := false } := rfl

@[simp] theorem State.giveBack_fifo : (s.giveBack r).fifo G = s.fifo G := by cases G <;> rfl
@[simp] theorem State.giveBack_rx : (s.giveBack r).rx = s.rx := rfl
@[simp] theorem State.giveBack_tx : (s.giveBack r).tx = s.tx := rfl
@[simp] theorem State.giveBack_disp : (s.giveBack r).disp = s.disp := rfl
@[simp] theorem State.giveBack_rst : (s.giveBack r).rst = s.rst := rfl
@[simp] theorem State.giveBack_history : (s.giveBack r).history = s.history := rfl
@[simp] theorem State.giveBack_inputs : (s.giveBack r).inputs = s.inputs := rfl
@[simp] theorem State.giveBack_lineDraw : (s.giveBack r).lineDraw = s.lineDraw := rfl
@[simp] theorem State.giveBack_drawCount : (s.giveBack r).drawCount = s.drawCount := rfl
@[simp] theorem State.giveBack_uart : (s.giveBack r).uart = s.uart := rfl
@[simp] theorem State.giveBack_main : (s.giveBack r).main = s.main := rfl
@[simp] theorem State.giveBack_rda : (s.giveBack r).rda = s.rda := rfl
@[simp] theorem State.giveBack_thre : (s.giveBack r).thre = s.thre := rfl
@[simp] theorem State.giveBack_err : (s.giveBack r).err = s.err := rfl
@[simp] theorem State.giveBack_kicker : (s.giveBack r).kicker = s.kicker := rfl
@[simp] theorem State.giveBack_returned : (s.giveBack r).returned = some r := rfl

@[simp] theorem State.tasks_setTasks_same : (s.setTasks a ts).tasks a = ts := by cases a <;> rfl
@[simp] theorem State.setTasks_fifo : (s.setTasks a ts).fifo G = s.fifo G := by cases a <;> cases G <;> rfl
@[simp] theorem State.setTasks_rx : (s.setTasks a ts).rx = s.rx := by cases a <;> rfl
@[simp] theorem State.setTasks_tx : (s.setTasks a ts).tx = s.tx := by cases a <;> rfl
@[simp] theorem State.setTasks_disp : (s.setTasks a ts).disp = s.disp := by cases a <;> rfl
@[simp] theorem State.setTasks_rst : (s.setTasks a ts).rst = s.rst := by cases a <;> rfl
@[simp] theorem State.setTasks_history : (s.setTasks a ts).history = s.history := by cases a <;> rfl
@[simp] theorem State.setTasks_inputs : (s.setTasks a ts).inputs = s.inputs := by cases a <;> rfl
@[simp] theorem State.setTasks_lineDraw : (s.setTasks a ts).lineDraw = s.lineDraw := by cases a <;> rfl
@[simp] theorem State.setTasks_drawCount : (s.setTasks a ts).drawCount = s.drawCount := by cases a <;> rfl
@[simp] theorem State.setTasks_uart : (s.setTasks a ts).uart = s.uart := by cases a <;> rfl
@[simp] theorem State.setTasks_returned : (s.setTasks a ts).returned = s.returned := by cases a <;> rfl
@[simp] theorem State.setTasks_main_same : (s.setTasks .main ts).main = ts := rfl
@[simp] theorem State.tasks_main : s.tasks .main = s.main := rfl
@[simp] theorem State.setTasks_main_rda : (s.setTasks .main ts).rda = s.rda := rfl
@[simp] theorem State.setTasks_main_thre : (s.setTasks .main ts).thre = s.thre := rfl
@[simp] theorem State.setTasks_main_err : (s.setTasks .main ts).err = s.err := rfl
@[simp] theorem State.setTasks_rda_same : (s.setTasks .rda ts).rda = ts := rfl
@[simp] theorem State.tasks_rda : s.tasks .rda = s.rda := rfl
@[simp] theorem State.setTasks_rda_main : (s.setTasks .rda ts).main = s.main := rfl
@[simp] theorem State.setTasks_rda_thre : (s.setTasks .rda ts).thre = s.thre := rfl
@[simp] theorem State.setTasks_rda_err : (s.setTasks .rda ts).err = s.err := rfl
@[simp] theorem State.setTasks_thre_same : (s.setTasks .thre ts).thre = ts := rfl
@[simp] theorem State.tasks_thre : s.tasks .thre = s.thre := rfl
@[simp] theorem State.setTasks_thre_main : (s.setTasks .thre ts).main = s.main := rfl
@[simp] theorem State.setTasks_thre_rda : (s.setTasks .thre ts).rda = s.rda := rfl
@[simp] theorem State.setTasks_thre_err : (s.setTasks .thre ts).err = s.err := rfl
@[simp] theorem State.setTasks_err_same : (s.setTasks .err ts).err = ts := rfl
@[simp] theorem State.tasks_err : s.tasks .err = s.err := rfl
@[simp] theorem State.tasks_kicker : s.tasks .kicker = s.kicker := rfl
@[simp] theorem State.setTasks_kicker_same : (s.setTasks .kicker ts).kicker = ts := rfl
@[simp] theorem State.setTasks_main_kicker : (s.setTasks .main ts).kicker = s.kicker := rfl
@[simp] theorem State.setTasks_kicker_main : (s.setTasks .kicker ts).main = s.main := rfl
@[simp] theorem State.setTasks_rda_kicker : (s.setTasks .rda ts).kicker = s.kicker := rfl
@[simp] theorem State.setTasks_kicker_rda : (s.setTasks .kicker ts).rda = s.rda := rfl
@[simp] theorem State.setTasks_thre_kicker : (s.setTasks .thre ts).kicker = s.kicker := rfl
@[simp] theorem State.setTasks_kicker_thre : (s.setTasks .kicker ts).thre = s.thre := rfl
@[simp] theorem State.setTasks_err_kicker : (s.setTasks .err ts).kicker = s.kicker := rfl
@[simp] theorem State.setTasks_kicker_err : (s.setTasks .kicker ts).err = s.err := rfl
@[simp] theorem State.setTasks_err_main : (s.setTasks .err ts).main = s.main := rfl
@[simp] theorem State.setTasks_err_rda : (s.setTasks .err ts).rda = s.rda := rfl
@[simp] theorem State.setTasks_err_thre : (s.setTasks .err ts).thre = s.thre := rfl

/-! A missed kick only leaves the kicker something to do. -/

@[simp] theorem kickMissed_rx : (kickMissed s).rx = s.rx := by unfold kickMissed; split <;> rfl
@[simp] theorem kickMissed_tx : (kickMissed s).tx = s.tx := by unfold kickMissed; split <;> rfl
@[simp] theorem kickMissed_disp : (kickMissed s).disp = s.disp := by unfold kickMissed; split <;> rfl
@[simp] theorem kickMissed_rst : (kickMissed s).rst = s.rst := by unfold kickMissed; split <;> rfl
@[simp] theorem kickMissed_history : (kickMissed s).history = s.history := by unfold kickMissed; split <;> rfl
@[simp] theorem kickMissed_inputs : (kickMissed s).inputs = s.inputs := by unfold kickMissed; split <;> rfl
@[simp] theorem kickMissed_lineDraw : (kickMissed s).lineDraw = s.lineDraw := by unfold kickMissed; split <;> rfl
@[simp] theorem kickMissed_drawCount : (kickMissed s).drawCount = s.drawCount := by unfold kickMissed; split <;> rfl
@[simp] theorem kickMissed_uart : (kickMissed s).uart = s.uart := by unfold kickMissed; split <;> rfl
@[simp] theorem kickMissed_main : (kickMissed s).main = s.main := by unfold kickMissed; split <;> rfl
@[simp] theorem kickMissed_rda : (kickMissed s).rda = s.rda := by unfold kickMissed; split <;> rfl
@[simp] theorem kickMissed_thre : (kickMissed s).thre = s.thre := by unfold kickMissed; split <;> rfl
@[simp] theorem kickMissed_err : (kickMissed s).err = s.err := by unfold kickMissed; split <;> rfl
@[simp] theorem kickMissed_returned : (kickMissed s).returned = s.returned := by unfold kickMissed; split <;> rfl
@[simp] theorem kickMissed_kicker :
    (kickMissed s).kicker = if s.tx.wsync = [] then s.kicker else s.kicker ++ [.rekick] := by
  unfold kickMissed; split <;> simp_all

/-! One instance: the bookkeeping keeps what the command part wrote, and the parts of the commands keep the rest. -/

@[simp] theorem Fifo.bookW_mem : (pre.bookW d post).mem = post.mem := rfl
@[simp] theorem Fifo.bookW_wptr : (pre.bookW d post).wptr = post.wptr := rfl
@[simp] theorem Fifo.bookW_wgray : (pre.bookW d post).wgray = post.wgray := rfl
@[simp] theorem Fifo.bookW_rsync :
    (pre.bookW d post).rsync = shiftIn pre.rsync (sample pre.rFresh pre.rgray pre.rgrayPrev d) := rfl
@[simp] theorem Fifo.bookW_rptr : (pre.bookW d post).rptr = post.rptr := rfl
@[simp] theorem Fifo.bookW_rgray : (pre.bookW d post).rgray = post.rgray := rfl
@[simp] theorem Fifo.bookW_wsync : (pre.bookW d post).wsync = post.wsync := rfl
@[simp] theorem Fifo.bookW_wgrayPrev : (pre.bookW d post).wgrayPrev = pre.wgray := rfl
@[simp] theorem Fifo.bookW_wFresh : (pre.bookW d post).wFresh = true := rfl
@[simp] theorem Fifo.bookW_rgrayPrev : (pre.bookW d post).rgrayPrev = post.rgrayPrev := rfl
@[simp] theorem Fifo.bookW_rFresh : (pre.bookW d post).rFresh = false := rfl
@[simp] theorem Fifo.bookW_clr : (pre.bookW d post).clr = post.clr := rfl
@[simp] theorem Fifo.bookW_wHold : (pre.bookW d post).wHold = pre.wHold - 1 := rfl
@[simp] theorem Fifo.bookW_rHold : (pre.bookW d post).rHold = post.rHold := rfl
@[simp] theorem Fifo.bookW_result : (pre.bookW d post).result = post.result := rfl
@[simp] theorem Fifo.bookW_pushed : (pre.bookW d post).pushed = post.pushed := rfl
@[simp] theorem Fifo.bookW_delivered : (pre.bookW d post).delivered = post.delivered := rfl

@[simp] theorem Fifo.bookR_mem : (pre.bookR d post).mem = post.mem := rfl
@[simp] theorem Fifo.bookR_wptr : (pre.bookR d post).wptr = post.wptr := rfl
@[simp] theorem Fifo.bookR_wgray : (pre.bookR d post).wgray = post.wgray := rfl
@[simp] theorem Fifo.bookR_rsync : (pre.bookR d post).rsync = post.rsync := rfl
@[simp] theorem Fifo.bookR_rptr : (pre.bookR d post).rptr = post.rptr := rfl
@[simp] theorem Fifo.bookR_rgray : (pre.bookR d post).rgray = post.rgray := rfl
@[simp] theorem Fifo.bookR_wsync :
    (pre.bookR d post).wsync = shiftIn pre.wsync (sample pre.wFresh pre.wgray pre.wgrayPrev d) := rfl
@[simp] theorem Fifo.bookR_wgrayPrev : (pre.bookR d post).wgrayPrev = post.wgrayPrev := rfl
@[simp] theorem Fifo.bookR_wFresh : (pre.bookR d post).wFresh = false := rfl
@[simp] theorem Fifo.bookR_rgrayPrev : (pre.bookR d post).rgrayPrev = pre.rgray := rfl
@[simp] theorem Fifo.bookR_rFresh : (pre.bookR d post).rFresh = true := rfl
@[simp] theorem Fifo.bookR_clr : (pre.bookR d post).clr = post.clr := rfl
@[simp] theorem Fifo.bookR_wHold : (pre.bookR d post).wHold = post.wHold := rfl
@[simp] theorem Fifo.bookR_rHold : (pre.bookR d post).rHold = pre.rHold - 1 := rfl
@[simp] theorem Fifo.bookR_result : (pre.bookR d post).result = post.result := rfl
@[simp] theorem Fifo.bookR_pushed : (pre.bookR d post).pushed = post.pushed := rfl
@[simp] theorem Fifo.bookR_delivered : (pre.bookR d post).delivered = post.delivered := rfl

@[simp] theorem Fifo.store_mem : (f.store b).mem = memWrite f.mem f.writeIndex b := rfl
@[simp] theorem Fifo.store_wptr : (f.store b).wptr = nextCursor f.wptr := rfl
@[simp] theorem Fifo.store_wgray : (f.store b).wgray = gray (nextCursor f.wptr) := rfl
@[simp] theorem Fifo.store_pushed : (f.store b).pushed = f.pushed ++ [b] := rfl
@[simp] theorem Fifo.store_rsync : (f.store b).rsync = f.rsync := rfl
@[simp] theorem Fifo.store_rptr : (f.store b).rptr = f.rptr := rfl
@[simp] theorem Fifo.store_rgray : (f.store b).rgray = f.rgray := rfl
@[simp] theorem Fifo.store_wsync : (f.store b).wsync = f.wsync := rfl
@[simp] theorem Fifo.store_rgrayPrev : (f.store b).rgrayPrev = f.rgrayPrev := rfl
@[simp] theorem Fifo.store_clr : (f.store b).clr = f.clr := rfl
@[simp] theorem Fifo.store_rHold : (f.store b).rHold = f.rHold := rfl
@[simp] theorem Fifo.store_result : (f.store b).result = f.result := rfl
@[simp] theorem Fifo.store_delivered : (f.store b).delivered = f.delivered := rfl

@[simp] theorem Fifo.take_mem : (f.take b).mem = f.mem := rfl
@[simp] theorem Fifo.take_wptr : (f.take b).wptr = f.wptr := rfl
@[simp] theorem Fifo.take_wgray : (f.take b).wgray = f.wgray := rfl
@[simp] theorem Fifo.take_pushed : (f.take b).pushed = f.pushed := rfl
@[simp] theorem Fifo.take_rsync : (f.take b).rsync = f.rsync := rfl
@[simp] theorem Fifo.take_rptr : (f.take b).rptr = nextCursor f.rptr := rfl
@[simp] theorem Fifo.take_rgray : (f.take b).rgray = gray (nextCursor f.rptr) := rfl
@[simp] theorem Fifo.take_wsync : (f.take b).wsync = f.wsync := rfl
@[simp] theorem Fifo.take_wgrayPrev : (f.take b).wgrayPrev = f.wgrayPrev := rfl
@[simp] theorem Fifo.take_clr : (f.take b).clr = f.clr := rfl
@[simp] theorem Fifo.take_wHold : (f.take b).wHold = f.wHold := rfl
@[simp] theorem Fifo.take_result : (f.take b).result = some b := rfl
@[simp] theorem Fifo.take_delivered : (f.take b).delivered = f.delivered ++ [b] := rfl

@[simp] theorem Fifo.deliverNone_mem : f.deliverNone.mem = f.mem := rfl
@[simp] theorem Fifo.deliverNone_wptr : f.deliverNone.wptr = f.wptr := rfl
@[simp] theorem Fifo.deliverNone_wgray : f.deliverNone.wgray = f.wgray := rfl
@[simp] theorem Fifo.deliverNone_pushed : f.deliverNone.pushed = f.pushed := rfl
@[simp] theorem Fifo.deliverNone_rsync : f.deliverNone.rsync = f.rsync := rfl
@[simp] theorem Fifo.deliverNone_rptr : f.deliverNone.rptr = f.rptr := rfl
@[simp] theorem Fifo.deliverNone_rgray : f.deliverNone.rgray = f.rgray := rfl
@[simp] theorem Fifo.deliverNone_wsync : f.deliverNone.wsync = f.wsync := rfl
@[simp] theorem Fifo.deliverNone_wgrayPrev : f.deliverNone.wgrayPrev = f.wgrayPrev := rfl
@[simp] theorem Fifo.deliverNone_clr : f.deliverNone.clr = f.clr := rfl
@[simp] theorem Fifo.deliverNone_wHold : f.deliverNone.wHold = f.wHold := rfl
@[simp] theorem Fifo.deliverNone_result : f.deliverNone.result = none := rfl
@[simp] theorem Fifo.deliverNone_delivered : f.deliverNone.delivered = f.delivered := rfl

@[simp] theorem Fifo.stages_eq : f.stages = f.wsync.length := rfl
@[simp] theorem Fifo.cleared_mem : f.cleared.mem = f.mem := rfl
@[simp] theorem Fifo.cleared_wptr : f.cleared.wptr = 0#7 := rfl
@[simp] theorem Fifo.cleared_wgray : f.cleared.wgray = 0#7 := rfl
@[simp] theorem Fifo.cleared_rptr : f.cleared.rptr = 0#7 := rfl
@[simp] theorem Fifo.cleared_rgray : f.cleared.rgray = 0#7 := rfl
@[simp] theorem Fifo.cleared_wsync : f.cleared.wsync = List.replicate f.wsync.length 0#7 := rfl
@[simp] theorem Fifo.cleared_rsync : f.cleared.rsync = List.replicate f.rsync.length 0#7 := rfl
@[simp] theorem Fifo.cleared_wgrayPrev : f.cleared.wgrayPrev = 0#7 := rfl
@[simp] theorem Fifo.cleared_rgrayPrev : f.cleared.rgrayPrev = 0#7 := rfl
@[simp] theorem Fifo.cleared_wFresh : f.cleared.wFresh = false := rfl
@[simp] theorem Fifo.cleared_rFresh : f.cleared.rFresh = false := rfl
@[simp] theorem Fifo.cleared_clr : f.cleared.clr = f.clr := rfl
@[simp] theorem Fifo.cleared_wHold : f.cleared.wHold = f.wsync.length + 1 := rfl
@[simp] theorem Fifo.cleared_rHold : f.cleared.rHold = f.wsync.length + 1 := rfl
@[simp] theorem Fifo.cleared_result : f.cleared.result = f.result := rfl
@[simp] theorem Fifo.cleared_pushed : f.cleared.pushed = [] := rfl
@[simp] theorem Fifo.cleared_delivered : f.cleared.delivered = [] := rfl

/-! Going on with an outcome. -/

@[simp] theorem onNext_next {α β : Type} (x : α) (k : α → Host.Outcome β Fault Refusal) :
    onNext (.next x) k = k x := rfl
@[simp] theorem onNext_refused {α β : Type} (q : Refusal) (k : α → Host.Outcome β Fault Refusal) :
    onNext (.refused q) k = .refused q := rfl

/-- An outcome continued to a next state had a next state itself. -/
theorem onNext_eq_next {α β : Type} {o : Host.Outcome α Fault Refusal} {k : α → Host.Outcome β Fault Refusal} {y : β}
    (h : onNext o k = .next y) : ∃ x, o = .next x ∧ k x = .next y := by
  cases o with
  | next x => exact ⟨x, rfl, h⟩
  | fault r => cases r
  | refused q => cases h

theorem onNext_eq_refused {α β : Type} {o : Host.Outcome α Fault Refusal} {k : α → Host.Outcome β Fault Refusal}
    {q : Refusal} (h : onNext o k = .refused q) : o = .refused q ∨ ∃ x, o = .next x ∧ k x = .refused q := by
  cases o with
  | next x => exact .inr ⟨x, rfl, h⟩
  | fault r => cases r
  | refused r => cases h; exact .inl rfl

end Sys2Proof.Machine
end

