-- ==== Sys2Proof/Laws/Gray.lean ====
section
/-! SUPPORT. The gray code (rule R23) and cursors as counts modulo 128. -/

namespace Sys2Proof.Machine

theorem ungray_gray (b : Cursor) : ungray (gray b) = b := by revert b; decide

theorem gray_ungray (g : Cursor) : gray (ungray g) = g := by revert g; decide

theorem gray_injective {a b : Cursor} (h : gray a = gray b) : a = b := by
  rw [← ungray_gray a, h, ungray_gray]

@[simp] theorem gray_inj {a b : Cursor} : gray a = gray b ↔ a = b := ⟨gray_injective, fun h => h ▸ rfl⟩

theorem nextCursor_ofNat (n : Nat) : nextCursor (BitVec.ofNat 7 n) = BitVec.ofNat 7 (n + 1) := by
  simp [nextCursor, BitVec.ofNat_add]

theorem nextCursor_toNat (c : Cursor) : (nextCursor c).toNat = (c.toNat + 1) % 128 := by simp [nextCursor]

theorem ofNat_cursor_eq {m n : Nat} : BitVec.ofNat 7 m = BitVec.ofNat 7 n ↔ m % 128 = n % 128 := by
  simp [← BitVec.toNat_inj]

theorem grayAt_eq {m n : Nat} : grayAt m = grayAt n ↔ m % 128 = n % 128 := by
  simp [grayAt, ofNat_cursor_eq]

theorem ungray_grayAt (n : Nat) : ungray (grayAt n) = BitVec.ofNat 7 n := ungray_gray _

/-- The difference of two counted cursors, when the first is at most 127 ahead. -/
theorem cursor_sub_toNat {m n : Nat} (h : n ≤ m) (h' : m ≤ n + 127) :
    (BitVec.ofNat 7 m - BitVec.ofNat 7 n).toNat = m - n := by
  simp only [BitVec.toNat_sub, BitVec.toNat_ofNat]
  omega

end Sys2Proof.Machine
end

