-- ==== Sys2Proof/Laws/Sync.lean ====
section
/-! SUPPORT. What a synchroniser holds (rules R126, R128, R129, R140 (I2)): one lemma per thing that can happen to it. -/

namespace Sys2Proof.Machine

variable {stages : List Cursor} {count least : Nat} {fresh : Bool} {prev : Cursor}

/-- The value of the last stage is the image of a count between `least` and `count`, and no stage is older. -/
theorem SyncSound.seen (h : SyncSound stages count least fresh prev) (hl : least ≤ count) :
    ∃ k, stages.getLastD (grayAt count) = grayAt k ∧ least ≤ k ∧ k ≤ count ∧
      ∀ l, l ≤ k → SyncSound stages count l fresh prev := by
  obtain ⟨ages, rfl, hsorted, hleast, hfresh⟩ := h
  rcases List.eq_nil_or_concat' ages with rfl | ⟨older, k, rfl⟩
  · exact ⟨count, rfl, hl, le_rfl, fun l _ => ⟨[], rfl, hsorted, by simp, hfresh⟩⟩
  · refine ⟨k, by simp [List.getLastD_eq_getLast?], hleast k (by simp), ?_, fun l hlk => ?_⟩
    · exact (List.pairwise_cons.1 hsorted).1 k (by simp)
    · refine ⟨older ++ [k], rfl, hsorted, fun j hj => ?_, hfresh⟩
      rcases List.mem_append.1 hj with hj | hj
      · have := (List.pairwise_append.1 (List.pairwise_cons.1 hsorted).2).2.2 j hj k (by simp)
        omega
      · have : j = k := by simpa using hj
        omega

/-- A step of the destination domain: one shift, taking either outcome of the draw. -/
theorem SyncSound.shift (h : SyncSound stages count least fresh prev) (d : Draw) (prev' : Cursor) :
    SyncSound (shiftIn stages (sample fresh (grayAt count) prev d)) count least false prev' := by
  obtain ⟨ages, rfl, hsorted, hleast, hfresh⟩ := h
  have hsample : ∃ p, sample fresh (grayAt count) prev d = grayAt p ∧ p ≤ count ∧ ∀ k ∈ ages, k ≤ p := by
    have hnew : ∀ k ∈ ages, k ≤ count := (List.pairwise_cons.1 hsorted).1
    cases fresh with
    | false => exact ⟨count, rfl, le_rfl, hnew⟩
    | true =>
      cases d with
      | new => exact ⟨count, rfl, le_rfl, hnew⟩
      | old => obtain ⟨p, hp, hpc, _, hk⟩ := hfresh rfl; exact ⟨p, hp, hpc, hk⟩
  obtain ⟨p, hp, hpc, hk⟩ := hsample
  refine ⟨(p :: ages).dropLast, by rw [shiftIn, hp, ← List.map_cons, List.map_dropLast], ?_, fun j hj => ?_, by simp⟩
  · refine List.pairwise_cons.2 ⟨fun j hj => ?_, ?_⟩
    · rcases List.mem_cons.1 (List.mem_of_mem_dropLast hj) with rfl | hj
      · exact hpc
      · exact (List.pairwise_cons.1 hsorted).1 j hj
    · exact (List.pairwise_cons.2 ⟨hk, (List.pairwise_cons.1 hsorted).2⟩).sublist (List.dropLast_sublist _)
  · rcases List.mem_cons.1 (List.mem_of_mem_dropLast hj) with rfl | hj
    · cases ages with
      | nil => simp at hj
      | cons k _ => exact (hleast k (by simp)).trans (hk k (by simp))
    · exact hleast j hj

/-- A step of the source domain that leaves the cursor. -/
theorem SyncSound.idle (h : SyncSound stages count least fresh prev) :
    SyncSound stages count least true (grayAt count) := by
  obtain ⟨ages, hst, hsorted, hleast, _⟩ := h
  exact ⟨ages, hst, hsorted, hleast, fun _ => ⟨count, rfl, le_rfl, by omega, (List.pairwise_cons.1 hsorted).1⟩⟩

/-- A step of the source domain that advances the cursor. -/
theorem SyncSound.advance (h : SyncSound stages count least fresh prev) :
    SyncSound stages (count + 1) least true (grayAt count) := by
  obtain ⟨ages, hst, hsorted, hleast, _⟩ := h
  have hc := (List.pairwise_cons.1 hsorted).1
  refine ⟨ages, hst, ?_, hleast, fun _ => ⟨count, rfl, by omega, le_rfl, hc⟩⟩
  exact List.pairwise_cons.2 ⟨fun k hk => (hc k hk).trans (Nat.le_succ _), (List.pairwise_cons.1 hsorted).2⟩

/-- Fewer demands on the age. -/
theorem SyncSound.mono (h : SyncSound stages count least fresh prev) {l : Nat} (hl : l ≤ least) :
    SyncSound stages count l fresh prev := by
  obtain ⟨ages, hst, hsorted, hleast, hfresh⟩ := h
  exact ⟨ages, hst, hsorted, fun k hk => hl.trans (hleast k hk), hfresh⟩

/-- Zeroed stages, cursor 0, no step since. -/
theorem SyncSound.zero (n : Nat) (prev : Cursor) : SyncSound (List.replicate n 0#7) 0 0 false prev := by
  refine ⟨List.replicate n 0, by rw [List.map_replicate]; rfl, ?_, by simp, by simp⟩
  refine List.pairwise_cons.2 ⟨by simp [List.mem_replicate], List.pairwise_replicate.2 (Or.inr le_rfl)⟩

/-- A synchroniser all of whose stages hold `x`, or that has none, shows `x`. -/
theorem getLastD_of_all {stages : List Cursor} {x : Cursor} (h : ∀ g ∈ stages, g = x) : stages.getLastD x = x := by
  rw [List.getLastD_eq_getLast?]
  cases hl : stages.getLast? with
  | none => rfl
  | some g => exact h g (List.mem_of_getLast? hl)

theorem getLastD_replicate (n : Nat) (x : Cursor) : (List.replicate n x).getLastD x = x :=
  getLastD_of_all fun _ hg => List.eq_of_mem_replicate hg

/-- A later stage takes the stage before it. -/
theorem shiftIn_succ (x : Cursor) {k : Nat} (hk : k + 1 < stages.length) :
    (shiftIn stages x)[k + 1]? = stages[k]? := by
  have hk' : k < stages.length := by omega
  simp [shiftIn, List.getElem?_dropLast, hk']
  omega

/-- The first stage takes the sample. -/
theorem shiftIn_zero (x : Cursor) (h : stages ≠ []) : (shiftIn stages x)[0]? = some x := by
  cases stages with
  | nil => exact absurd rfl h
  | cons y ys => simp [shiftIn]

/-- With no stage there is nothing to shift; with one or more the fallback of "last stage" is not used. -/
theorem getLastD_fallback {l : List Cursor} (h : l ≠ []) (x y : Cursor) : l.getLastD x = l.getLastD y := by
  simp [List.getLastD_eq_getLast?, List.getLast?_eq_some_getLast h]

@[simp] theorem shiftIn_length (x : Cursor) : (shiftIn stages x).length = stages.length := by
  simp [shiftIn]

end Sys2Proof.Machine
end

