-- ==== Sys2Proof/Laws/Fifo.lean ====
section
/-! SUPPORT. The invariants of one FIFO instance (rule R140): they hold after reset, and each part of a command with its
bookkeeping keeps them. -/

namespace Sys2Proof.Machine

/-- A step of domain W leaves `empty` as it is when S ≥ 1 (rule R121). -/
theorem Fifo.bookW_empty (pre post : Fifo) (d : Draw) (h1 : post.rgray = pre.rgray) (h2 : post.wsync = pre.wsync)
    (h : pre.wsync ≠ []) : (pre.bookW d post).empty = pre.empty := by
  have hs : (pre.bookW d post).wseen = pre.wseen := by
    show post.wsync.getLastD _ = _
    rw [h2]
    exact getLastD_fallback h _ _
  simp only [Fifo.empty, hs, Fifo.bookW_rgray, h1]

/-- A step of domain R leaves `full` as it is when S ≥ 1 (rule R123). -/
theorem Fifo.bookR_full (pre post : Fifo) (d : Draw) (h1 : post.wptr = pre.wptr) (h2 : post.rsync = pre.rsync)
    (h : pre.rsync ≠ []) : (pre.bookR d post).full = pre.full := by
  have hs : (pre.bookR d post).rseen = pre.rseen := by
    show post.rsync.getLastD _ = _
    rw [h2]
    exact getLastD_fallback h _ _
  simp only [Fifo.full, hs, Fifo.bookR_wptr, h1]

namespace Fifo.Sound

variable {f : Fifo} (h : f.Sound)
include h

theorem wgray_eq : f.wgray = grayAt f.pushed.length := by rw [h.wgray_image, h.wptr_count]; rfl

theorem rgray_eq : f.rgray = grayAt f.delivered.length := by rw [h.rgray_image, h.rptr_count]; rfl

theorem counts : f.delivered.length ≤ f.pushed.length := h.order.length_le

/-- The write cursor as domain R sees it is the image of a count it has had. -/
theorem wseen_count : ∃ k, f.wseen = grayAt k ∧ f.delivered.length ≤ k ∧ k ≤ f.pushed.length ∧
    ∀ l, l ≤ k → SyncSound f.wsync f.pushed.length l f.wFresh f.wgrayPrev := by
  have := h.wsync_sound.seen h.counts
  rwa [← h.wgray_eq] at this

/-- The read cursor as domain W sees it is the image of a count it has had. -/
theorem rseen_count : ∃ k, f.rseen = grayAt k ∧ f.pushed.length - 127 ≤ k ∧ k ≤ f.delivered.length ∧
    ∀ l, l ≤ k → SyncSound f.rsync f.delivered.length l f.rFresh f.rgrayPrev := by
  have := h.rsync_sound.seen (by have := h.room; omega)
  rwa [← h.rgray_eq] at this

/-- Not full: even the oldest view of the read cursor leaves room for one more byte. -/
theorem room_of_not_full (hf : f.full = false) :
    f.pushed.length + 1 ≤ f.delivered.length + 127 ∧
    SyncSound f.rsync f.delivered.length (f.pushed.length + 1 - 127) f.rFresh f.rgrayPrev := by
  obtain ⟨k, hk, hlo, hhi, hs⟩ := h.rseen_count
  have hne : ¬ (f.pushed.length + 1) % 128 = k % 128 := by
    rw [← grayAt_eq]
    simpa [Fifo.full, h.wptr_count, nextCursor_ofNat, hk, grayAt] using hf
  have : f.pushed.length + 1 ≤ k + 127 := by omega
  exact ⟨by omega, hs _ (by omega)⟩

/-- Not empty: even the oldest view of the write cursor is ahead of the read cursor. -/
theorem bytes_of_not_empty (he : f.empty = false) :
    f.delivered.length < f.pushed.length ∧
    SyncSound f.wsync f.pushed.length (f.delivered.length + 1) f.wFresh f.wgrayPrev := by
  obtain ⟨k, hk, hlo, hhi, hs⟩ := h.wseen_count
  have hne : ¬ f.delivered.length % 128 = k % 128 := by
    rw [← grayAt_eq, ← hk, ← h.rgray_eq]
    simpa [Fifo.empty] using he
  have : f.delivered.length < k := by
    rcases Nat.lt_or_ge f.delivered.length k with hlt | hge
    · exact hlt
    · exact absurd (by rw [Nat.le_antisymm hge hlo]) hne
  exact ⟨by omega, hs _ this⟩

/-- The slot a POP reads while bytes are held is the oldest undelivered byte. -/
theorem read_oldest (hb : f.delivered.length < f.pushed.length) :
    memRead f.mem f.readIndex = f.pushed[f.delivered.length]? := by
  have := h.held _ le_rfl hb
  rwa [Fifo.readIndex, h.rptr_count, BitVec.toNat_ofNat]

/-- `occ_true` is the difference of the counts. -/
theorem occTrue_count : f.occTrue = f.pushed.length - f.delivered.length := by
  rw [Fifo.occTrue, h.wptr_count, h.rptr_count, cursor_sub_toNat h.counts h.room]

/-- `occ_w` is the difference to the count domain W sees. -/
theorem occW_count : ∃ k, f.rseen = grayAt k ∧ f.occW = f.pushed.length - k ∧ k ≤ f.delivered.length ∧
    f.pushed.length ≤ k + 127 := by
  obtain ⟨k, hk, h1, h2, -⟩ := h.rseen_count
  have := h.counts
  refine ⟨k, hk, ?_, h2, by omega⟩
  rw [Fifo.occW, h.wptr_count, hk, ungray_grayAt, cursor_sub_toNat (by omega) (by omega)]

/-- `occ_r` is the difference from the count domain R sees. -/
theorem occR_count : ∃ k, f.wseen = grayAt k ∧ f.occR = k - f.delivered.length ∧ f.delivered.length ≤ k ∧
    k ≤ f.pushed.length := by
  obtain ⟨k, hk, h1, h2, -⟩ := h.wseen_count
  have := h.room
  refine ⟨k, hk, ?_, h1, h2⟩
  rw [Fifo.occR, h.rptr_count, hk, ungray_grayAt, cursor_sub_toNat (by omega) (by omega)]

/-- A `WEDGE` without an effective PUSH (rules R121, R122, R128). -/
theorem bookW_self (d : Draw) : (f.bookW d f).Sound := by
  obtain ⟨c1, c2, c3, c4, c5, c6, c7, c8, c9, c10, c11⟩ := id h
  refine ⟨c1, c2, c3, c4, c5, c6, c7, c8, by simpa using c9, ?_, ?_⟩
  · simpa [h.wgray_eq] using c10.idle
  · have := c11.shift d f.rgrayPrev
    simpa [h.rgray_eq] using this

/-- A `WEDGE` with an effective PUSH (rules R121, R128). -/
theorem bookW_store (d : Draw) (b : Byte) (hf : f.full = false) : (f.bookW d (f.store b)).Sound := by
  obtain ⟨c1, c2, c3, c4, c5, c6, c7, c8, c9, c10, c11⟩ := id h
  obtain ⟨hroom, hsync⟩ := h.room_of_not_full hf
  have hcounts := h.counts
  refine ⟨?_, rfl, c3, c4, c5.trans (List.prefix_append _ _), by simpa using hroom, ?_, ?_, by simpa using c9, ?_, ?_⟩
  · simp [c1, nextCursor_ofNat]
  · intro k hlo hhi
    simp only [Fifo.bookW_mem, Fifo.store_mem, Fifo.bookW_pushed, Fifo.store_pushed, Fifo.bookW_delivered,
      Fifo.store_delivered, List.length_append, List.length_singleton] at hlo hhi ⊢
    rw [memRead_memWrite, Fifo.writeIndex, c1, BitVec.toNat_ofNat]
    by_cases hk : k = f.pushed.length
    · simp [hk]
    · have hne : ¬ k % 128 = f.pushed.length % 2 ^ 7 := by omega
      rw [if_neg hne, c7 k hlo (by omega), List.getElem?_append_left (by omega)]
  · refine memWrite_wf _ _ c8 ?_
    have := f.wptr.isLt
    simpa [Fifo.writeIndex, Config.capacity] using this
  · have := c10.advance
    simpa [h.wgray_eq] using this
  · have := hsync.shift d f.rgrayPrev
    simpa [h.rgray_eq] using this

/-- A `REDGE` without an effective POP (rules R123, R124, R129), whatever the result register says. -/
theorem bookR_self (d : Draw) : (f.bookR d f).Sound := by
  obtain ⟨c1, c2, c3, c4, c5, c6, c7, c8, c9, c10, c11⟩ := id h
  refine ⟨c1, c2, c3, c4, c5, c6, c7, c8, by simpa using c9, ?_, ?_⟩
  · have := c10.shift d f.wgrayPrev
    simpa [h.wgray_eq] using this
  · simpa [h.rgray_eq] using c11.idle

/-- A `REDGE` with an ineffective POP (rules R123, R129). -/
theorem bookR_deliverNone (d : Draw) : (f.bookR d f.deliverNone).Sound := by
  obtain ⟨c1, c2, c3, c4, c5, c6, c7, c8, c9, c10, c11⟩ := h.bookR_self d
  exact ⟨c1, c2, c3, c4, c5, c6, c7, c8, c9, c10, c11⟩

/-- A `REDGE` with an effective POP (rules R123, R129). -/
theorem bookR_take (d : Draw) (b : Byte) (he : f.empty = false)
    (hb : memRead f.mem f.readIndex = some b) : (f.bookR d (f.take b)).Sound := by
  obtain ⟨c1, c2, c3, c4, c5, c6, c7, c8, c9, c10, c11⟩ := id h
  obtain ⟨hlt, hsync⟩ := h.bytes_of_not_empty he
  have hb' : f.pushed[f.delivered.length]? = some b := by rw [← h.read_oldest hlt, hb]
  have hroom := h.room
  refine ⟨c1, c2, ?_, rfl, ?_, ?_, ?_, c8, by simpa using c9, ?_, ?_⟩
  · simp [c3, nextCursor_ofNat]
  · obtain ⟨rest, hrest⟩ := c5
    simp only [Fifo.bookR_delivered, Fifo.take_delivered, Fifo.bookR_pushed, Fifo.take_pushed]
    rw [← hrest, List.getElem?_append_right le_rfl, Nat.sub_self] at hb'
    cases rest with
    | nil => simp at hb'
    | cons x rest =>
      have : x = b := by simpa using hb'
      subst this
      exact ⟨rest, by simp [← hrest]⟩
  · simp only [Fifo.bookR_pushed, Fifo.take_pushed, Fifo.bookR_delivered, Fifo.take_delivered, List.length_append,
      List.length_singleton]
    omega
  · intro k hlo hhi
    simp only [Fifo.bookR_delivered, Fifo.take_delivered, List.length_append, List.length_singleton] at hlo
    exact c7 k (by omega) hhi
  · have := hsync.shift d f.wgrayPrev
    simpa [h.wgray_eq] using this
  · simpa [h.rgray_eq] using c11.advance

/-- CLEAR (rule R125). -/
theorem cleared_sound : f.cleared.Sound := by
  refine ⟨rfl, by simp [gray], rfl, by simp [gray], List.prefix_rfl, by simp, by simp, h.canonical, by simpa using h.stages, ?_, ?_⟩
  · simpa using SyncSound.zero f.wsync.length 0#7
  · simpa using SyncSound.zero f.rsync.length 0#7

/-- The clear pin's level and the quiet window are not part of the invariants. -/
theorem setPins (c : Bool) (w r : Nat) : ({ f with clr := c, wHold := w, rHold := r } : Fifo).Sound := by
  obtain ⟨c1, c2, c3, c4, c5, c6, c7, c8, c9, c10, c11⟩ := h
  exact ⟨c1, c2, c3, c4, c5, c6, c7, c8, c9, c10, c11⟩

end Fifo.Sound

/-- Reset (rule R31). -/
theorem Fifo.reset_sound (n : Nat) : (Fifo.reset n).Sound := by
  refine ⟨rfl, by simp [Fifo.reset, gray], rfl, by simp [Fifo.reset, gray], List.prefix_rfl, by simp [Fifo.reset], by simp [Fifo.reset], rfl, rfl, ?_, ?_⟩
  · simpa [Fifo.reset] using SyncSound.zero n 0#7
  · simpa [Fifo.reset] using SyncSound.zero n 0#7

end Sys2Proof.Machine
end

