-- ==== Sys2Proof/Laws/Exec.lean ====
section
/-! SUPPORT. What each meaning can answer: under the conditions on the state alone it answers this next state, and any
next state it answers is one of these. -/

namespace Sys2Proof.Machine

variable {s t : State} {F : Inst} {b : Byte}

theorem execPush_full (hr : s.rst = false) (hw : (s.fifo F).inClearWindow = false) (hf : (s.fifo F).full = true) :
    execPush F b s = .next ((s.edgeW F (s.fifo F)).record (.overflow F b)) := by
  simp [execPush, hr, hw, hf]

theorem execPush_room (hr : s.rst = false) (hw : (s.fifo F).inClearWindow = false) (hf : (s.fifo F).full = false) :
    execPush F b s = .next (s.edgeW F ((s.fifo F).store b)) := by
  simp [execPush, hr, hw, hf]

/-- PUSH answers a next state only in these two ways. -/
theorem execPush_next (h : execPush F b s = .next t) :
    s.rst = false ∧ (s.fifo F).inClearWindow = false ∧
    ((s.fifo F).full = true ∧ t = (s.edgeW F (s.fifo F)).record (.overflow F b) ∨
     (s.fifo F).full = false ∧ t = s.edgeW F ((s.fifo F).store b)) := by
  unfold execPush at h
  split at h
  · cases h
  · split at h
    · cases h
    · split at h
      · next h1 h2 h3 => cases h; exact ⟨by simpa using h1, by simpa using h2, .inl ⟨h3, rfl⟩⟩
      · next h1 h2 h3 => cases h; exact ⟨by simpa using h1, by simpa using h2, .inr ⟨by simpa using h3, rfl⟩⟩

theorem execWnop_running (hr : s.rst = false) : execWnop F s = .next (s.edgeW F (s.fifo F)) := by
  simp [execWnop, hr]

theorem execWnop_next (h : execWnop F s = .next t) :
    s.rst = true ∧ t = s ∨ s.rst = false ∧ t = s.edgeW F (s.fifo F) := by
  unfold execWnop at h
  split at h
  · next h1 => cases h; exact .inl ⟨h1, rfl⟩
  · next h1 => cases h; exact .inr ⟨by simpa using h1, rfl⟩

theorem execPop_empty (hr : s.rst = false) (hw : (s.fifo F).inClearWindow = false) (he : (s.fifo F).empty = true) :
    execPop F s = .next ((s.edgeR F (s.fifo F).deliverNone).record (.underflow F)) := by
  simp [execPop, hr, hw, he]

theorem execPop_some (hr : s.rst = false) (hw : (s.fifo F).inClearWindow = false) (he : (s.fifo F).empty = false)
    (hb : memRead (s.fifo F).mem (s.fifo F).readIndex = some b) :
    execPop F s = .next (s.edgeR F ((s.fifo F).take b)) := by
  simp [execPop, hr, hw, he, hb]

/-- POP answers a next state only in these two ways. -/
theorem execPop_next (h : execPop F s = .next t) :
    s.rst = false ∧ (s.fifo F).inClearWindow = false ∧
    ((s.fifo F).empty = true ∧ t = (s.edgeR F (s.fifo F).deliverNone).record (.underflow F) ∨
     (s.fifo F).empty = false ∧ ∃ b, memRead (s.fifo F).mem (s.fifo F).readIndex = some b ∧
       t = s.edgeR F ((s.fifo F).take b)) := by
  unfold execPop at h
  split at h
  · cases h
  · split at h
    · cases h
    · split at h
      · next h1 h2 h3 => cases h; exact ⟨by simpa using h1, by simpa using h2, .inl ⟨h3, rfl⟩⟩
      · next h1 h2 h3 =>
        split at h
        · next b hb => cases h; exact ⟨by simpa using h1, by simpa using h2, .inr ⟨by simpa using h3, b, hb, rfl⟩⟩
        · cases h

theorem execRnop_running (hr : s.rst = false) : execRnop F s = .next (s.edgeR F (s.fifo F)) := by
  simp [execRnop, hr]

theorem execRnop_next (h : execRnop F s = .next t) :
    s.rst = true ∧ t = s ∨ s.rst = false ∧ t = s.edgeR F (s.fifo F) := by
  unfold execRnop at h
  split at h
  · next h1 => cases h; exact .inl ⟨h1, rfl⟩
  · next h1 => cases h; exact .inr ⟨by simpa using h1, rfl⟩

theorem execClear_running (hr : s.rst = false) : execClear F s = .next (s.clearFifo F) := by
  simp [execClear, hr]

theorem execClear_next (h : execClear F s = .next t) : s.rst = false ∧ t = s.clearFifo F := by
  unfold execClear at h
  split at h
  · cases h
  · next h1 => cases h; exact ⟨by simpa using h1, rfl⟩

theorem execTick_running (hr : s.rst = false) :
    execTick s = .next (s.setDisp (s.disp.tick Config.glyphRom)) := by
  simp [execTick, hr]

theorem execTick_next (h : execTick s = .next t) :
    s.rst = false ∧ t = s.setDisp (s.disp.tick Config.glyphRom) := by
  unfold execTick at h
  split at h
  · cases h
  · next h1 => cases h; exact ⟨by simpa using h1, rfl⟩

theorem execAdvance_running (hr : s.rst = false) : execAdvance s = .next (s.setDisp s.disp.advance) := by
  simp [execAdvance, hr]

theorem execAdvance_next (h : execAdvance s = .next t) : s.rst = false ∧ t = s.setDisp s.disp.advance := by
  unfold execAdvance at h
  split at h
  · cases h
  · next h1 => cases h; exact ⟨by simpa using h1, rfl⟩

theorem execTickAdvance_running (hr : s.rst = false) :
    execTickAdvance s = .next (s.setDisp (s.disp.tickAdvance Config.glyphRom)) := by
  simp [execTickAdvance, hr]

theorem execTickAdvance_next (h : execTickAdvance s = .next t) :
    s.rst = false ∧ t = s.setDisp (s.disp.tickAdvance Config.glyphRom) := by
  unfold execTickAdvance at h
  split at h
  · cases h
  · next h1 => cases h; exact ⟨by simpa using h1, rfl⟩

/-! What PUSH and POP can refuse, and a port line beside running sequences. -/

theorem execPush_refused {q : Refusal} (h : execPush F b s = .refused q) :
    q = .commandDuringReset ∧ s.rst = true ∨
    q = .clearWindow F ∧ s.rst = false ∧ (s.fifo F).inClearWindow = true := by
  unfold execPush at h
  split at h
  · next h1 => cases h; exact .inl ⟨rfl, h1⟩
  · next h1 =>
    split at h
    · next h2 => cases h; exact .inr ⟨rfl, by simpa using h1, h2⟩
    · split at h <;> cases h

theorem execPop_refused {q : Refusal} (h : execPop F s = .refused q) :
    q = .commandDuringReset ∧ s.rst = true ∨
    q = .clearWindow F ∧ s.rst = false ∧ (s.fifo F).inClearWindow = true ∨
    q = .unwrittenSlot F ∧ (s.fifo F).empty = false ∧ memRead (s.fifo F).mem (s.fifo F).readIndex = none := by
  unfold execPop at h
  split at h
  · next h1 => cases h; exact .inl ⟨rfl, h1⟩
  · next h1 =>
    split at h
    · next h2 => cases h; exact .inr (.inl ⟨rfl, by simpa using h1, h2⟩)
    · split at h
      · cases h
      · next h3 =>
        split at h
        · cases h
        · next h4 => cases h; exact .inr (.inr ⟨rfl, by simpa using h3, h4⟩)

/-- A port line presented next is run as a line. -/
theorem step_line {l : Line} {rest : List Input} (h : s.inputs = .line l :: rest) :
    step s = runLine l (s.setInputs rest) := by simp [step, h]

theorem runLine_alone {l : Line} (h : secondDriver (decode l.word) s = none) :
    runLine l s = exec (decode l.word) (s.setLineDraw l.draw) := by simp [runLine, h]

theorem runLine_second {l : Line} {q : Refusal} (h : secondDriver (decode l.word) s = some q) :
    runLine l s = .refused q := by simp [runLine, h]

/-- What is pending does not make a second driver. -/
@[simp] theorem secondDriver_setInputs (i : Instr) (is : List Input) :
    secondDriver i (s.setInputs is) = secondDriver i s := by cases i <;> rfl

/-- Idle commands and TICK are never second drivers. -/
@[simp] theorem secondDriver_wnop : secondDriver (.wnop F) s = none := rfl
@[simp] theorem secondDriver_rnop : secondDriver (.rnop F) s = none := rfl
@[simp] theorem secondDriver_cnop : secondDriver (.cnop F) s = none := rfl
@[simp] theorem secondDriver_dnop : secondDriver .dnop s = none := rfl
@[simp] theorem secondDriver_tick : secondDriver .tick s = none := rfl

@[simp] theorem drivesPort_nil (p : Port) : drivesPort [] p = false := by simp [drivesPort]

/-- A part still to run drives its port, but on TX.R only if it is the next one. -/
theorem drivesPort_of_mem {ts : List Task} {k : Task} {p : Port} (hk : k ∈ ts) (hp : k.port = some p)
    (h : p ≠ .r .tx ∨ ts.head? = some k) : drivesPort ts p = true := by
  rcases h with h | h
  · simp only [drivesPort, Bool.or_eq_true, Bool.and_eq_true, List.any_eq_true, decide_eq_true_eq]
    exact .inr ⟨h, k, hk, hp⟩
  · simp [drivesPort, h, hp]

theorem State.drives_of_agent {a : Agent} {p : Port} (h : drivesPort (s.tasks a) p = true) : s.drives p = true := by
  cases a <;> simp_all [State.drives]

/-! Which ports the agents drive is not changed by a command. -/

@[simp] theorem State.setInputs_drives (is : List Input) (p : Port) : (s.setInputs is).drives p = s.drives p := by simp [State.drives]
@[simp] theorem State.setLineDraw_drives (d : Option Draw) (p : Port) : (s.setLineDraw d).drives p = s.drives p := by simp [State.drives]
@[simp] theorem State.setDisp_drives (d : Display) (p : Port) : (s.setDisp d).drives p = s.drives p := by simp [State.drives]
@[simp] theorem State.record_drives (e : Ghost) (p : Port) : (s.record e).drives p = s.drives p := by simp [State.drives]
@[simp] theorem State.edgeW_drives (f : Fifo) (p : Port) : (s.edgeW F f).drives p = s.drives p := by simp [State.drives]
@[simp] theorem State.edgeR_drives (f : Fifo) (p : Port) : (s.edgeR F f).drives p = s.drives p := by simp [State.drives]
@[simp] theorem State.clearFifo_drives (p : Port) : (s.clearFifo F).drives p = s.drives p := by simp [State.drives]

end Sys2Proof.Machine
end

