-- ==== Sys2Proof/Laws/Moves.lean ====
section
/-! SUPPORT. Everything one step can do to a FIFO instance and to the display, said once. -/

namespace Sys2Proof.Machine

/-- What one step of the machine can do to one FIFO instance. -/
inductive Fifo.Move : Fifo → Fifo → Prop where
  | stay (f) : Move f f
  | writeIdle (f) (d : Draw) : Move f (f.bookW d f)
  | store (f) (d : Draw) (b : Byte) (hf : f.full = false) : Move f (f.bookW d (f.store b))
  | readIdle (f) (d : Draw) : Move f (f.bookR d f)
  | readNone (f) (d : Draw) (he : f.empty = true) : Move f (f.bookR d f.deliverNone)
  | take (f) (d : Draw) (b : Byte) (he : f.empty = false) (hb : memRead f.mem f.readIndex = some b) :
      Move f (f.bookR d (f.take b))
  | clear (f) : Move f f.cleared
  | clearRise (f) : Move f f.cleared.raiseClr
  | clearFall (f) : Move f f.lowerClr
  | reset (f) (n : Nat) : Move f (Fifo.reset n)

/-- What one step of the machine can do to the display. -/
inductive Display.Move : Display → Display → Prop where
  | stay (d) : Move d d
  | tick (d) : Move d (d.tick Config.glyphRom)
  | advance (d) : Move d d.advance
  | tickAdvance (d) : Move d (d.tickAdvance Config.glyphRom)
  | reset (d) : Move d Display.reset

theorem Fifo.Move.sound {f g : Fifo} (m : f.Move g) (h : f.Sound) : g.Sound := by
  cases m with
  | stay => exact h
  | writeIdle d => exact h.bookW_self d
  | store d b hf => exact h.bookW_store d b hf
  | readIdle d => exact h.bookR_self d
  | readNone d _ => exact h.bookR_deliverNone d
  | take d b he hb => exact h.bookR_take d b he hb
  | clear => exact h.cleared_sound
  | clearRise => exact h.cleared_sound.setPins true _ _
  | clearFall => exact h.setPins false _ _
  | reset n => exact Fifo.reset_sound n

/-- What one step does to the two blocks together. -/
structure State.Moves (s t : State) : Prop where
  rx : s.rx.Move t.rx
  tx : s.tx.Move t.tx
  disp : s.disp.Move t.disp

/-- Nothing happened to either block. -/
theorem State.Moves.of_eq {s t : State} (h1 : t.rx = s.rx) (h2 : t.tx = s.tx) (h3 : t.disp = s.disp) : s.Moves t :=
  ⟨h1 ▸ .stay _, h2 ▸ .stay _, h3 ▸ .stay _⟩

/-- Only one instance moved. -/
theorem State.Moves.of_fifo {s t : State} (F : Inst) (h1 : (s.fifo F).Move (t.fifo F))
    (h2 : ∀ G, G ≠ F → t.fifo G = s.fifo G) (h3 : t.disp = s.disp) : s.Moves t := by
  cases F with
  | rx => exact ⟨h1, (show t.tx = s.tx from h2 .tx (by decide)) ▸ .stay _, h3 ▸ .stay _⟩
  | tx => exact ⟨(show t.rx = s.rx from h2 .rx (by decide)) ▸ .stay _, h1, h3 ▸ .stay _⟩

/-- The blocks of the two ends are what counts: anything around them may differ. -/
theorem State.Moves.congr {s s' t t' : State} (h : s.Moves t) (a : s'.rx = s.rx) (b : s'.tx = s.tx)
    (c : s'.disp = s.disp) (a' : t'.rx = t.rx) (b' : t'.tx = t.tx) (c' : t'.disp = t.disp) : s'.Moves t' :=
  ⟨a ▸ a' ▸ h.rx, b ▸ b' ▸ h.tx, c ▸ c' ▸ h.disp⟩

section meanings

variable {s t : State} {F : Inst} {b : Byte}

theorem execPush_moves (h : execPush F b s = .next t) : s.Moves t := by
  obtain ⟨-, -, ⟨-, rfl⟩ | ⟨hf, rfl⟩⟩ := execPush_next h
  · exact .of_fifo F (by simpa using .writeIdle _ _) (fun G hG => by simp [State.edgeW_fifo_other _ _ _ _ hG]) (by simp)
  · exact .of_fifo F (by simpa using .store _ _ _ hf) (fun G hG => State.edgeW_fifo_other _ _ _ _ hG) (by simp)

theorem execWnop_moves (h : execWnop F s = .next t) : s.Moves t := by
  obtain ⟨-, rfl⟩ | ⟨-, rfl⟩ := execWnop_next h
  · exact .of_eq rfl rfl rfl
  · exact .of_fifo F (by simpa using .writeIdle _ _) (fun G hG => State.edgeW_fifo_other _ _ _ _ hG) (by simp)

theorem execPop_moves (h : execPop F s = .next t) : s.Moves t := by
  obtain ⟨-, -, ⟨he, rfl⟩ | ⟨he, b, hb, rfl⟩⟩ := execPop_next h
  · exact .of_fifo F (by simpa using .readNone _ _ he) (fun G hG => by simp [State.edgeR_fifo_other _ _ _ _ hG])
      (by simp)
  · exact .of_fifo F (by simpa using .take _ _ _ he hb) (fun G hG => State.edgeR_fifo_other _ _ _ _ hG) (by simp)

theorem execRnop_moves (h : execRnop F s = .next t) : s.Moves t := by
  obtain ⟨-, rfl⟩ | ⟨-, rfl⟩ := execRnop_next h
  · exact .of_eq rfl rfl rfl
  · exact .of_fifo F (by simpa using .readIdle _ _) (fun G hG => State.edgeR_fifo_other _ _ _ _ hG) (by simp)

theorem execClear_moves (h : execClear F s = .next t) : s.Moves t := by
  obtain ⟨-, rfl⟩ := execClear_next h
  exact .of_fifo F (by simpa using .clear _) (fun G hG => State.clearFifo_fifo_other _ _ _ hG) (by simp)

theorem execTick_moves (h : execTick s = .next t) : s.Moves t := by
  obtain ⟨-, rfl⟩ := execTick_next h
  exact ⟨.stay _, .stay _, .tick _⟩

theorem execAdvance_moves (h : execAdvance s = .next t) : s.Moves t := by
  obtain ⟨-, rfl⟩ := execAdvance_next h
  exact ⟨.stay _, .stay _, .advance _⟩

theorem execTickAdvance_moves (h : execTickAdvance s = .next t) : s.Moves t := by
  obtain ⟨-, rfl⟩ := execTickAdvance_next h
  exact ⟨.stay _, .stay _, .tickAdvance _⟩

theorem exec_moves {i : Instr} (h : exec i s = .next t) : s.Moves t := by
  cases i with
  | push F b => exact execPush_moves h
  | wnop F => exact execWnop_moves h
  | pop F => exact execPop_moves h
  | rnop F => exact execRnop_moves h
  | clear F => exact execClear_moves h
  | cnop F => cases h; exact .of_eq rfl rfl rfl
  | dnop => cases h; exact .of_eq rfl rfl rfl
  | tick => exact execTick_moves h
  | advance => exact execAdvance_moves h
  | tickAdvance => exact execTickAdvance_moves h

end meanings

section sequences

variable {s : State}

theorem popToUart_moves {t : State} (h : popToUart s = .next t) : s.Moves t := by
  obtain ⟨u, hu, h⟩ := onNext_eq_next h
  have hm := execPop_moves hu
  split at h <;> cases h
  · exact hm.congr rfl rfl rfl rfl rfl rfl
  · exact hm

theorem kickStep_moves {r : List Task × State} (h : kickStep s = .next r) : s.Moves r.2 := by
  unfold kickStep at h
  split at h
  · obtain ⟨u, hu, h⟩ := onNext_eq_next h
    cases h
    exact (popToUart_moves hu).congr rfl rfl rfl rfl rfl rfl
  · cases h
    exact .of_eq (by simp) (by simp) (by simp)

theorem rekickStep_moves {r : List Task × State} (h : rekickStep s = .next r) : s.Moves r.2 := by
  unfold rekickStep at h
  split at h
  · obtain ⟨u, hu, h⟩ := onNext_eq_next h
    cases h
    exact popToUart_moves hu
  · obtain ⟨u, hu, h⟩ := onNext_eq_next h
    cases h
    exact execRnop_moves hu

/-- One step of a part of a sequence is at most one move of either block (rule R66). -/
theorem taskStep_moves {k : Task} {r : List Task × State} (h : taskStep k s = .next r) : s.Moves r.2 := by
  cases k with
  | drain =>
    simp only [taskStep] at h
    split at h
    · cases h; exact .of_eq rfl rfl rfl
    · obtain ⟨u, hu, h⟩ := onNext_eq_next h
      cases h
      exact (execPush_moves hu).congr rfl rfl rfl rfl rfl rfl
  | copy cap got =>
    simp only [taskStep, copyStep] at h
    split at h
    · cases h; exact .of_eq rfl rfl rfl
    · split at h
      · obtain ⟨u, hu, h⟩ := onNext_eq_next h
        cases h
        exact (execRnop_moves hu).congr rfl rfl rfl rfl rfl rfl
      · obtain ⟨u, hu, h⟩ := onNext_eq_next h
        cases h
        exact execPop_moves hu
  | clearRx =>
    obtain ⟨u, hu, h⟩ := onNext_eq_next h
    cases h
    exact execClear_moves hu
  | discardRx => cases h; exact .of_eq rfl rfl rfl
  | pollPending => cases h; exact .of_eq rfl rfl rfl
  | send k rest =>
    cases rest with
    | nil => cases h; exact .of_eq rfl rfl rfl
    | cons b rest =>
      simp only [taskStep, sendStep] at h
      split at h
      · obtain ⟨u, hu, h⟩ := onNext_eq_next h
        cases h
        exact execWnop_moves hu
      · obtain ⟨u, hu, h⟩ := onNext_eq_next h
        cases h
        exact execPush_moves hu
  | kick => exact kickStep_moves h
  | rekick => exact rekickStep_moves h
  | pump =>
    simp only [taskStep] at h
    split at h
    · cases h; exact .of_eq rfl rfl rfl
    · obtain ⟨u, hu, h⟩ := onNext_eq_next h
      cases h
      exact popToUart_moves hu
  | lsrRead => cases h; exact .of_eq rfl rfl rfl
  | advance =>
    obtain ⟨u, hu, h⟩ := onNext_eq_next h
    cases h
    exact execAdvance_moves hu
  | done r => cases h; exact .of_eq rfl rfl rfl

theorem agentStep_moves {a : Agent} {t : State} (h : agentStep a s = .next t) : s.Moves t := by
  unfold agentStep at h
  split at h
  · cases h; exact .of_eq rfl rfl rfl
  · split at h
    · cases h
    · split at h
      · cases h
      · split at h
        · cases h
        · obtain ⟨r, hr, h⟩ := onNext_eq_next h
          cases h
          exact (taskStep_moves hr).congr rfl rfl rfl (by simp) (by simp) (by simp)

theorem start_moves {a : Agent} {ts : List Task} {t : State} (h : s.start a ts = .next t) : s.Moves t := by
  unfold State.start at h
  split at h
  · cases h; exact .of_eq (by simp) (by simp) (by simp)
  · cases h

theorem interrupt_moves {q : Irq} {t : State} (h : interrupt q s = .next t) : s.Moves t := by
  cases q with
  | timer => exact execTick_moves h
  | rda =>
    obtain ⟨u, hu, h⟩ := onNext_eq_next h
    split at h <;> cases h
    exact start_moves hu
  | thre =>
    obtain ⟨u, hu, h⟩ := onNext_eq_next h
    split at h <;> cases h
    · exact (start_moves hu).congr rfl rfl rfl rfl rfl rfl
    · exact .of_eq rfl rfl rfl
  | err => exact start_moves h

theorem runLine_moves {l : Line} {t : State} (h : runLine l s = .next t) : s.Moves t := by
  unfold runLine at h
  split at h
  · cases h
  · exact (exec_moves h).congr rfl rfl rfl rfl rfl rfl

theorem setClr_moves {F : Inst} {level : Bool} {t : State} (h : setClr F level s = .next t) : s.Moves t := by
  unfold setClr at h
  split at h
  · cases h; exact .of_eq rfl rfl rfl
  · split at h
    · split at h
      · cases h
      obtain ⟨u, hu, h⟩ := onNext_eq_next h
      obtain ⟨-, rfl⟩ := execClear_next hu
      cases h
      refine .of_fifo F (by simpa using .clearRise _) (fun G hG => ?_) (by simp)
      rw [State.fifo_setFifo_other _ _ _ _ hG, State.clearFifo_fifo_other _ _ _ hG]
    · cases h
      exact .of_fifo F (by simpa using .clearFall _) (fun G hG => State.fifo_setFifo_other _ _ _ _ hG) (by simp)

theorem setRst_moves {level : Bool} {t : State} (h : setRst level s = .next t) : s.Moves t := by
  unfold setRst at h
  split at h
  · cases h; exact .of_eq rfl rfl rfl
  · split at h
    · split at h
      · cases h
      · cases h; exact ⟨.reset _ _, .reset _ _, .reset _⟩
    · cases h; exact .of_eq rfl rfl rfl

theorem together_moves {ls : List Line} {t : State} (h : together ls s = .next t) : s.Moves t := by
  simp only [together] at h
  split at h
  · cases h
  · split at h
    · cases h
    · cases h; exact .of_eq rfl rfl rfl

theorem uartEvent_moves (e : UartEvent) : s.Moves (uartEvent e s) := by
  cases e <;> exact .of_eq rfl rfl rfl

/-- Every step moves each block in one of the ways listed. -/
theorem step_moves {t : State} (h : step s = .next t) : s.Moves t := by
  simp only [step] at h
  split at h
  · cases h; exact .of_eq rfl rfl rfl
  · split at h
    · exact (runLine_moves h).congr rfl rfl rfl rfl rfl rfl
    · exact (together_moves h).congr rfl rfl rfl rfl rfl rfl
    · exact (setClr_moves h).congr rfl rfl rfl rfl rfl rfl
    · exact (setRst_moves h).congr rfl rfl rfl rfl rfl rfl
    · rename_i rest _ e _
      cases h
      exact (uartEvent_moves (s := s.setInputs rest) e).congr rfl rfl rfl rfl rfl rfl
    · exact (interrupt_moves h).congr rfl rfl rfl rfl rfl rfl
    · exact (start_moves h).congr rfl rfl rfl rfl rfl rfl
    · exact (agentStep_moves h).congr rfl rfl rfl rfl rfl rfl

end sequences

end Sys2Proof.Machine
end

