-- ==== Sys2Proof/Laws/Display.lean ====
section
/-! SUPPORT. The display's operations, field by field (rules R171 to R176), and its invariants (rule R44). -/

namespace Sys2Proof.Machine

variable (rom : Fin 11 → Fin 8 → Byte) (d : Display)

@[simp] theorem Display.tick_glyph : (d.tick rom).glyph = d.glyph := rfl
@[simp] theorem Display.tick_color : (d.tick rom).color = d.color := rfl
@[simp] theorem Display.tick_sel : (d.tick rom).sel = d.mask := rfl

/-- The explicit wrap of rule R171 is the natural one of three bits (rule R176). -/
theorem Display.tick_col : (d.tick rom).col = d.col + 1#3 := by
  simp only [Display.tick]
  split
  · next h => rw [h]; rfl
  · rfl

theorem color_cases (c : Fin 3) : c = 0 ∨ c = 1 ∨ c = 2 := by revert c; decide

/-- The palette's share of the red channel (rule R172). -/
theorem Display.tick_red : (d.tick rom).red = if d.color = 1 then 0x00#8 else rom d.glyph d.column := by
  rcases color_cases d.color with h | h | h <;> simp [Display.tick, h]

/-- The palette's share of the green channel (rule R172). -/
theorem Display.tick_grn : (d.tick rom).grn = if d.color = 0 then 0x00#8 else rom d.glyph d.column := by
  rcases color_cases d.color with h | h | h <;> simp [Display.tick, h]

theorem Display.advance_glyph_val : d.advance.glyph.val = if d.glyph.val = 10 then 0 else d.glyph.val + 1 := by
  have h : ∀ g : Fin 11, (g = 10 ↔ g.val = 10) ∧ (g ≠ 10 → (g + 1).val = g.val + 1) := by decide
  by_cases hg : d.glyph = 10
  · simp [Display.advance, hg]
  · simp [Display.advance, hg, (h d.glyph).2 hg, mt (h d.glyph).1.2 hg]

theorem Display.advance_color_val :
    d.advance.color.val = if d.glyph.val = 10 then (d.color.val + 1) % 3 else d.color.val := by
  have h : ∀ g : Fin 11, g = 10 ↔ g.val = 10 := by decide
  have hc : ∀ c : Fin 3, (c + 1).val = (c.val + 1) % 3 := by decide
  by_cases hg : d.glyph = 10
  · simp [Display.advance, hg, hc]
  · simp [Display.advance, hg, mt (h d.glyph).2 hg]

@[simp] theorem Display.advance_col : d.advance.col = d.col := by unfold Display.advance; split <;> rfl
@[simp] theorem Display.advance_mask : d.advance.mask = d.mask := by unfold Display.advance; split <;> rfl
@[simp] theorem Display.advance_sel : d.advance.sel = d.sel := by unfold Display.advance; split <;> rfl
@[simp] theorem Display.advance_red : d.advance.red = d.red := by unfold Display.advance; split <;> rfl
@[simp] theorem Display.advance_grn : d.advance.grn = d.grn := by unfold Display.advance; split <;> rfl

/-- TICK_ADVANCE is the two parts one after the other (rule R174). -/
theorem Display.tickAdvance_eq : d.tickAdvance rom = (d.tick rom).advance := by
  by_cases h : d.glyph = 10 <;> simp [Display.tickAdvance, Display.advance, h]

/-- The mask stays in step with the column (rules R41, R171). -/
theorem Display.tick_mask (h : d.mask = 1#8 <<< d.col.toNat) :
    (d.tick rom).mask = 1#8 <<< (d.tick rom).col.toNat := by
  rw [Display.tick_col]
  simp only [Display.tick, h]
  generalize d.col = c
  revert c
  decide

theorem Display.Sound.tick {d : Display} (h : d.Sound) : (d.tick rom).Sound :=
  ⟨Display.tick_mask rom d h.mask_col, .inr ⟨d.col.toNat, d.col.isLt, h.mask_col⟩⟩

theorem Display.Sound.advance {d : Display} (h : d.Sound) : d.advance.Sound :=
  ⟨by simpa using h.mask_col, by simpa using h.sel_line⟩

theorem Display.reset_sound : Display.reset.Sound := ⟨by decide, .inl rfl⟩

theorem Display.Move.sound {d e : Display} (m : d.Move e) (h : d.Sound) : e.Sound := by
  cases m with
  | stay => exact h
  | tick => exact h.tick _
  | advance => exact h.advance
  | tickAdvance => rw [Display.tickAdvance_eq]; exact (h.tick _).advance
  | reset => exact Display.reset_sound

end Sys2Proof.Machine
end

