-- ==== Sys2Proof/Laws/PerInstr.lean ====
section
/-! SUPPORT. Statements about every instruction as syntax, one lemma per constructor. -/

namespace Sys2Proof.Laws.EncodesOnItsRow

/-- The row of the opcode map with an instruction's mnemonic covers the word that encodes it (rule R98). -/
def Statement (i : Instr) : Prop :=
  ∃ row ∈ opcodeMap, row.mnemonic = i.mnemonic ∧ row.covers (encode i) = true

theorem push (F : Inst) (b : Byte) : Statement (.push F b) :=
  ⟨⟨"PUSH", .w, 0x100, 0x100⟩, by simp [opcodeMap], rfl, by
    revert b; cases F <;> decide⟩

theorem wnop (F : Inst) : Statement (.wnop F) :=
  ⟨⟨"WNOP", .w, 0x000, 0x100⟩, by simp [opcodeMap], rfl, by cases F <;> decide⟩

theorem pop (F : Inst) : Statement (.pop F) :=
  ⟨⟨"POP", .r, 0x1, 0x1⟩, by simp [opcodeMap], rfl, by cases F <;> decide⟩

theorem rnop (F : Inst) : Statement (.rnop F) :=
  ⟨⟨"RNOP", .r, 0x0, 0x1⟩, by simp [opcodeMap], rfl, by cases F <;> decide⟩

theorem clear (F : Inst) : Statement (.clear F) :=
  ⟨⟨"CLEAR", .c, 0x1, 0x1⟩, by simp [opcodeMap], rfl, by cases F <;> decide⟩

theorem cnop (F : Inst) : Statement (.cnop F) :=
  ⟨⟨"CNOP", .c, 0x0, 0x1⟩, by simp [opcodeMap], rfl, by cases F <;> decide⟩

theorem dnop : Statement .dnop := ⟨⟨"DNOP", .d, 0x0, 0x3⟩, by simp [opcodeMap], rfl, by decide⟩

theorem tick : Statement .tick := ⟨⟨"TICK", .d, 0x1, 0x3⟩, by simp [opcodeMap], rfl, by decide⟩

theorem advance : Statement .advance := ⟨⟨"ADVANCE", .d, 0x2, 0x3⟩, by simp [opcodeMap], rfl, by decide⟩

theorem tickAdvance : Statement .tickAdvance :=
  ⟨⟨"TICK_ADVANCE", .d, 0x3, 0x3⟩, by simp [opcodeMap], rfl, by decide⟩

end Sys2Proof.Laws.EncodesOnItsRow
end

