-- ==== Sys2Proof/Laws/Run.lean ====
section
/-! SUPPORT. Runs of several steps, one step at a time. -/

namespace Sys2Proof.Machine

theorem runs_zero {s t : State} : Runs 0 s t ↔ s = t := by
  show (Host.Outcome.next s = Host.Outcome.next t) ↔ s = t
  simp

/-- A run is its first step and the run after it. -/
theorem runs_succ {n : Nat} {s t : State} : Runs (n + 1) s t ↔ ∃ u, step s = .next u ∧ Runs n u t := by
  unfold Runs
  rw [show Sys2Proof.core.run (n + 1) s = onNext (step s) (fun u => Sys2Proof.core.run n u) from ?_]
  · constructor
    · exact onNext_eq_next
    · rintro ⟨u, hu, h⟩; rw [hu]; exact h
  · simp only [Host.Core.run]
    show _ = onNext (step s) _
    cases h : step s with
    | next u => simp [Sys2Proof.core, h]
    | fault r => cases r
    | refused r => simp [Sys2Proof.core, h]

/-- Two runs in a row. -/
theorem runs_add {m n : Nat} {s t u : State} (h1 : Runs m s t) (h2 : Runs n t u) : Runs (m + n) s u := by
  induction m generalizing s with
  | zero => rw [runs_zero] at h1; subst h1; simpa using h2
  | succ m ih =>
    obtain ⟨v, hv, h1⟩ := runs_succ.1 h1
    rw [Nat.succ_add]
    exact runs_succ.2 ⟨v, hv, ih h1⟩

/-- What holds at the start and is kept by every step holds at the end of every run. -/
theorem runs_keeps {P : State → Prop} (hstep : ∀ s t, P s → step s = .next t → P t) {n : Nat} {s t : State}
    (h : Runs n s t) (hs : P s) : P t := by
  induction n generalizing s with
  | zero => rw [runs_zero] at h; exact h ▸ hs
  | succ n ih =>
    obtain ⟨u, hu, h⟩ := runs_succ.1 h
    exact ih h (hstep s u hs hu)

/-! The state with lines presented. -/

@[simp] theorem State.withLines_fifo (s : State) (ls : List Line) (F : Inst) :
    (s.withLines ls).fifo F = s.fifo F := by cases F <;> rfl
@[simp] theorem State.withLines_disp (s : State) (ls : List Line) : (s.withLines ls).disp = s.disp := rfl
@[simp] theorem State.withLines_rst (s : State) (ls : List Line) : (s.withLines ls).rst = s.rst := rfl
@[simp] theorem State.withLines_history (s : State) (ls : List Line) : (s.withLines ls).history = s.history := rfl
@[simp] theorem State.withLines_inputs (s : State) (ls : List Line) :
    (s.withLines ls).inputs = ls.map Input.line := rfl

/-- A state whose pending inputs are lines is one with those lines presented. -/
theorem State.withLines_of_inputs {s : State} {ls : List Line} (h : s.inputs = ls.map Input.line) :
    s.withLines ls = s := by
  rw [State.withLines, ← h]; rfl

/-- The first step of a run over lines: a line that is no second driver runs its instruction. -/
theorem runs_line {l : Line} {ls : List Line} {n : Nat} {s u t : State} (h2 : secondDriver (decode l.word) s = none)
    (h : exec (decode l.word) ((s.withLines ls).setLineDraw l.draw) = .next u) (hu : Runs n u t) :
    Runs (n + 1) (s.withLines (l :: ls)) t :=
  runs_succ.2 ⟨u, by
    rw [step_line (s := s.withLines (l :: ls)) (l := l) (rest := ls.map Input.line) rfl,
      runLine_alone (by rw [secondDriver_setInputs]; exact h2)]
    exact h, hu⟩

end Sys2Proof.Machine
end

