-- ==== Sys2Proof/Tests/Slice0.lean ====
section
/-! SUPPORT. Tests of the model, their expected results from spec/95_test_vectors.md or worked out from the rules, and for
every statement with hypotheses a concrete state and operands that meet them. -/

namespace Sys2Proof.Tests

open Sys2Proof.Machine

/-! Well-formedness: an operation on a port of another format, or of the other instance, is refused. -/

theorem test_wf_pop_on_write_port : (TraceLine.cmd (.w .rx) (.pop .rx) none).wellFormed = false := by decide
theorem test_wf_push_on_the_other_instance : (TraceLine.cmd (.w .rx) (.push .tx 0x48#8) none).wellFormed = false := by
  decide
theorem test_wf_tick_on_clear_port : (TraceLine.cmd (.c .tx) .tick none).wellFormed = false := by decide
theorem test_wf_clear_on_display_port : (TraceLine.cmd .d (.clear .rx) none).wellFormed = false := by decide
theorem test_wf_line_of_b5 : (TraceLine.cmd (.r .rx) (.pop .rx) (some .new)).wellFormed = true := by decide
theorem test_assemble_refuses : assemble 2 (.cmd (.w .rx) (.pop .rx) none) = [] := by decide
theorem test_assemble_settle :
    assemble 2 (.settle .rx) = [⟨.r .rx 0#1, none⟩, ⟨.r .rx 0#1, none⟩, ⟨.r .rx 0#1, none⟩, ⟨.w .rx 0#9, none⟩,
      ⟨.w .rx 0#9, none⟩, ⟨.w .rx 0#9, none⟩] := by decide

/-! Decoding: words written out from the encodings of rule R98; 0x148 is PUSH 0x48 in program P1. -/

theorem test_decode_push : decode (.w .rx 0b101001000#9) = .push .rx 0x48#8 := by decide
theorem test_decode_push_p1 : decode (.w .tx 0x169#9) = .push .tx 0x69#8 := by decide
theorem test_decode_wnop_ignores_data : decode (.w .rx 0b011111111#9) = .wnop .rx := by decide
theorem test_decode_pop : decode (.r .tx 0b1#1) = .pop .tx := by decide
theorem test_decode_rnop : decode (.r .rx 0b0#1) = .rnop .rx := by decide
theorem test_decode_clear : decode (.c .rx 0b1#1) = .clear .rx := by decide
theorem test_decode_cnop : decode (.c .tx 0b0#1) = .cnop .tx := by decide
theorem test_decode_dnop : decode (.d 0b00#2) = .dnop := by decide
theorem test_decode_tick : decode (.d 0b01#2) = .tick := by decide
theorem test_decode_advance : decode (.d 0b10#2) = .advance := by decide
theorem test_decode_tick_advance : decode (.d 0b11#2) = .tickAdvance := by decide
theorem test_table_word_push : decodeTableWord 16 0x148 = some (.push .rx 0x48#8) := by decide
theorem test_table_word_tick_advance : decodeTableWord 8 3 = some .tickAdvance := by decide
theorem test_table_word_no_format : decodeTableWord 8 4 = none := by decide

/-! Helpers. -/

/-- The state of an outcome that has one, else the state before. -/
def after (o : Host.Outcome State Fault Refusal) (s : State) : State :=
  match o with
  | .next t => t
  | .fault _ => s
  | .refused _ => s

/-- Slots `lo` to `lo + k - 1`, each holding 0x55. -/
def slots : Nat → Nat → Memory
  | _, 0 => []
  | lo, k + 1 => (lo, 0x55#8) :: slots (lo + 1) k

/-- S = 2, with `n` bytes 0x55 pushed since the last CLEAR, all of them seen by domain R, none popped. -/
def loaded (n : Nat) : Fifo :=
  { Fifo.reset 2 with
    mem := slots 0 n
    wptr := BitVec.ofNat 7 n
    wgray := grayAt n
    wsync := [grayAt n, grayAt n]
    wgrayPrev := grayAt n
    pushed := List.replicate n 0x55#8 }

/-- After reset, but instance RX as given. -/
def withRx (f : Fifo) : State := { State.reset with rx := f }

/-- After reset, but instance TX as given. -/
def withTx (f : Fifo) : State := { State.reset with tx := f }

/-- After reset, but the display as given. -/
def withDisp (d : Display) : State := { State.reset with disp := d }

/-- After the step of program P1 line 1: 0x48 pushed from reset, S = 2, nothing seen yet by domain R. -/
def pushedOne : Fifo :=
  { Fifo.reset 2 with
    mem := [(0, 0x48#8)], wptr := 1#7, wgray := 0x01#7, wFresh := true, pushed := [0x48#8] }

/-- The test ROM of vector B10: `T(g,c) = (g << 4) | (c << 1) | 1`. -/
def testRom (g : Fin 11) (c : Fin 8) : Byte :=
  (BitVec.ofNat 8 g.val <<< 4) ||| (BitVec.ofNat 8 c.val <<< 1) ||| 1#8

theorem memRead_slots (lo k i : Nat) :
    memRead (slots lo k) i = if lo ≤ i ∧ i < lo + k then some 0x55#8 else none := by
  induction k generalizing lo with
  | zero => simp [slots, memRead]
  | succ k ih =>
    simp only [slots, memRead, ih]
    by_cases h : lo = i
    · simp [h]
    · simp only [h, if_false]
      congr 1
      simp only [eq_iff_iff]
      omega

theorem slots_wf (lo k : Nat) (h : lo + k ≤ 128) : Memory.wfFrom lo (slots lo k) = true := by
  induction k generalizing lo with
  | zero => rfl
  | succ k ih =>
    have := ih (lo + 1) (by omega)
    simp only [slots, Memory.wfFrom, this, Bool.and_true, Bool.and_eq_true, decide_eq_true_eq]
    show lo ≤ lo ∧ lo < 128
    omega

theorem loaded_sound (n : Nat) (h : n ≤ 127) : (loaded n).Sound where
  wptr_count := by simp [loaded]
  wgray_image := rfl
  rptr_count := rfl
  rgray_image := show (0#7 : Cursor) = gray 0#7 by decide
  order := List.nil_prefix
  room := by simp [loaded, Fifo.reset]; omega
  held := by
    intro k _ hk
    simp only [loaded, List.length_replicate] at hk
    have e : k % 128 = k := Nat.mod_eq_of_lt (by omega)
    simp only [loaded, e, memRead_slots]
    simp [hk]
  canonical := slots_wf 0 n (by omega)
  stages := rfl
  wsync_sound := ⟨[n, n], rfl, by simp [loaded], by simp [loaded, Fifo.reset], by simp [loaded, Fifo.reset]⟩
  rsync_sound := ⟨[0, 0], show [0#7, 0#7] = [0, 0].map grayAt by decide, by simp [loaded, Fifo.reset], by simp [loaded]; omega, by
    simp [loaded, Fifo.reset]⟩

theorem loaded_settled (n : Nat) : (loaded n).Settled := by
  refine ⟨by simp [loaded], ?_, by simp [loaded], by simp [loaded, Fifo.reset]⟩
  intro g hg
  simp [loaded, Fifo.reset] at hg
  simp [loaded, Fifo.reset, hg]

/-! The FIFO commands. -/

/-- Vector B1. -/
theorem test_gray_code : (gray 8#7, gray 64#7, gray 127#7, ungray 0x41#7) = (0x0C#7, 0x60#7, 0x40#7, 126#7) := by decide

/-- Vector B5, line 1. -/
theorem test_push : let t := after (exec (.push .rx 0x48#8) State.reset) State.reset
    t.rx.mem = [(0, 0x48#8)] ∧ t.rx.wptr = 1#7 ∧ t.rx.wgray = 0x01#7 ∧ t.rx.wFresh = true ∧ t.rx.empty = true := by
  decide

/-- Vector B3: the PUSH of 0x7F into 127 bytes. -/
theorem test_push_dropped : let s := withRx (loaded 127); let t := after (exec (.push .rx 0x7F#8) s) s
    t.history = [.overflow .rx 0x7F#8] ∧ t.rx.wptr = 127#7 ∧ memRead t.rx.mem 127 = none ∧
      traceResult (.push .rx 0x7F#8) s t = .dropped := by decide

/-- Vector B8: WNOP after the PUSH keeps the cursor and moves `wgray_prev` up to it. -/
theorem test_wnop : let s := withRx pushedOne; let t := after (exec (.wnop .rx) s) s
    t.rx.wptr = 1#7 ∧ t.rx.wgray = 0x01#7 ∧ t.rx.wgrayPrev = 0x01#7 ∧ t.rx.wFresh = true ∧ t.rx.rsync = [0#7, 0#7] := by
  decide

/-- Vector B5, line 2, with `draw=new`. -/
theorem test_pop_empty : let s := (withRx pushedOne).setLineDraw (some .new); let t := after (exec (.pop .rx) s) s
    t.rx.wsync = [0x01#7, 0x00#7] ∧ t.rx.empty = true ∧ t.rx.result = none ∧ t.history = [.underflow .rx] := by decide

/-- Vector B5, line 4. -/
theorem test_pop : let s := withRx { pushedOne with wsync := [0x01#7, 0x01#7], wFresh := false }
    let t := after (exec (.pop .rx) s) s
    t.rx.result = some 0x48#8 ∧ t.rx.rptr = 1#7 ∧ t.rx.rgray = 0x01#7 ∧ t.rx.empty = true ∧
      traceResult (.pop .rx) s t = .byte 0x48#8 := by decide

/-- Vector B5, first R step with `draw=old`. -/
theorem test_rnop_old : let s := (withRx pushedOne).setLineDraw (some .old); let t := after (exec (.rnop .rx) s) s
    t.rx.wsync = [0x00#7, 0x00#7] ∧ t.rx.wFresh = false ∧ t.rx.rFresh = true := by decide

/-- Vector B8: after an intervening WNOP even `draw=old` sees the PUSH. -/
theorem test_rnop_after_wnop :
    let s := (withRx { pushedOne with wgrayPrev := 0x01#7 }).setLineDraw (some .old)
    (after (exec (.rnop .rx) s) s).rx.wsync = [0x01#7, 0x00#7] := by decide

/-- Vector B7, its first line. -/
theorem test_clear :
    let s := withRx { loaded 5 with rptr := 2#7, rgray := 0x03#7 }; let t := after (exec (.clear .rx) s) s
    t.history = [.cleared .rx 3] ∧ t.rx.wptr = 0#7 ∧ t.rx.rptr = 0#7 ∧ t.rx.wsync = [0#7, 0#7] ∧ t.rx.empty = true ∧
      t.rx.full = false ∧ memRead t.rx.mem 4 = some 0x55#8 := by decide

/-- Rule R127. -/
theorem test_cnop : after (exec (.cnop .tx) (withTx pushedOne)) State.reset = withTx pushedOne := by decide

/-- Vector B2, with S = 0: the byte is seen at once. -/
theorem test_flags_no_stages : let f := { pushedOne with wsync := [], rsync := [] }
    f.empty = false ∧ f.full = false ∧ f.occR = 1 ∧ (withRx f).rData .rx = 0x48#8 := by decide

/-! The display, with the test ROM of vector B10. -/

/-- Vector B10, the first and the eighth TICK. -/
theorem test_tick_scan :
    Display.reset.tick testRom = ⟨0, 0, 1#3, 0x02#8, 0x01#8, 0x01#8, 0x00#8⟩ ∧
    Display.tick testRom ⟨0, 0, 7#3, 0x80#8, 0x40#8, 0x0D#8, 0x00#8⟩ = ⟨0, 0, 0#3, 0x01#8, 0x80#8, 0x0F#8, 0x00#8⟩ := by
  decide

/-- Vector B11. -/
theorem test_tick_palette :
    (Display.tick testRom { Display.reset with glyph := 10 }).red = 0xA1#8 ∧
    (Display.tick testRom { Display.reset with color := 1, col := 1#3, mask := 0x02#8 }).grn = 0x03#8 ∧
    (Display.tick testRom { Display.reset with color := 1, col := 1#3, mask := 0x02#8 }).red = 0x00#8 ∧
    (Display.tick testRom { Display.reset with color := 2, col := 2#3, mask := 0x04#8 }).red = 0x05#8 ∧
    (Display.tick testRom { Display.reset with color := 2, col := 2#3, mask := 0x04#8 }).grn = 0x05#8 := by decide

/-- Vector B12, n = 11. -/
theorem test_advance : let s := withDisp { Display.reset with glyph := 10 }; let t := after (exec .advance s) s
    t.disp.glyph = 0 ∧ t.disp.color = 1 ∧ t.disp.mask = 0x01#8 := by decide

/-- Vector B12, n = 33. -/
theorem test_advance_wraps : let s := withDisp { Display.reset with glyph := 10, color := 2 }
    let t := after (exec .advance s) s
    t.disp.glyph = 0 ∧ t.disp.color = 0 := by decide

/-- Vector B13. -/
theorem test_tick_advance :
    Display.tickAdvance testRom { Display.reset with color := 2, col := 3#3, mask := 0x08#8 } =
      ⟨1, 2, 4#3, 0x10#8, 0x08#8, 0x07#8, 0x07#8⟩ := by decide

/-- Vector B13, the DNOP after it. -/
theorem test_dnop : let s := withDisp ⟨1, 2, 4#3, 0x10#8, 0x08#8, 0x07#8, 0x07#8⟩
    after (exec .dnop s) State.reset = s := by decide

/-! The step. -/

/-- The word of program P1 line 1 runs as the first instruction after reset. -/
theorem test_fetch_word_push : let t := after (step (State.reset.withFetchWord 16 0x148)) State.reset
    t.rx.wptr = 1#7 ∧ t.rx.pushed = [0x48#8] ∧ t.inputs = [] := by decide

theorem test_fetch_word_advance :
    (after (step (State.reset.withFetchWord 8 2)) State.reset).disp.glyph = 1 := by decide

/-! The transport. -/

/-- Vector B9: the drain with RX full reads and drops 0x31, and 0x32 stays. -/
theorem test_drain_at_full :
    let s := { withRx (loaded 127) with
      uart := { Uart.reset with ready := true, rxFifo := [0x31#8, 0x32#8] }, rda := [.drain],
      inputs := [.run .rda (some .new)] }
    let t := after (step s) s
    t.history = [.overflow .rx 0x31#8] ∧ t.uart.rxFifo = [0x32#8] ∧ t.rda = [] := by decide

/-- Vector B9: `print_line("")` sends the two bytes of the terminator. -/
theorem test_print_line_empty :
    callTasks .afterAllBytes (.printLine [0x00#8]) =
      [.send .afterAllBytes [], .kick, .send .afterAllBytes [0x0D#8, 0x0A#8], .kick, .done (.count 2)] := by decide

/-- Vector B9: `receive(0)` returns nothing after the drain. -/
theorem test_receive_none :
    let s := { State.reset with main := [.copy 0 []], inputs := [.run .main none] }
    (after (step s) s).returned = some (.bytes []) := by decide

/-- Program P4: the kick finds the byte just pushed not visible yet, and is left to be repeated. -/
theorem test_kick_is_repeated :
    let s := { withTx pushedOne with
      uart := { Uart.reset with txIdle := true }, main := [.kick], inputs := [.run .main none] }
    let t := after (step s) s
    t.kicker = [.rekick] ∧ t.main = [] ∧ t.uart.txOut = [] ∧ t.tx.rptr = 0#7 := by decide

/-- Rule R204: a second missed kick has a repetition of its own. -/
theorem test_second_missed_kick :
    let s := { withTx pushedOne with
      uart := { Uart.reset with txIdle := true }, main := [.kick], kicker := [.rekick], inputs := [.run .main none] }
    (after (step s) s).kicker = [.rekick, .rekick] := by decide

/-- Rule R204: the repeated kick sends exactly one byte, also while `send` waits. -/
theorem test_repeated_kick_sends :
    let s := { withTx (loaded 127) with
      uart := { Uart.reset with txIdle := true }, main := [.send .afterEachByte [0x48#8]], kicker := [.rekick],
      inputs := [.run .kicker none] }
    let t := after (step s) s
    t.kicker = [] ∧ t.uart.txOut = [0x55#8] ∧ t.tx.rptr = 1#7 ∧ t.main = s.main := by decide

/-- Rules R275 and R276: beside a running RDA drain a PUSH of RX has a second driver, and CLEAR finds RX not idle; WNOP is
a clock edge. -/
theorem test_lines_beside_a_drain :
    let s := fun w => { State.reset with rda := [.drain], inputs := [.line ⟨w, none⟩] }
    step (s (.w .rx 0x148#9)) = .refused (.twoDrivers (.w .rx)) ∧ step (s (.c .rx 1#1)) = .refused (.clearOverlap .rx) ∧
      ∃ t, step (s (.w .rx 0x000#9)) = .next t := ⟨rfl, rfl, _, rfl⟩

/-- U8: clear_receive while another agent holds `RX.clr` at 1. -/
theorem test_clear_receive_beside_the_pin :
    step { withRx { Fifo.reset 2 with clr := true } with main := [.clearRx, .discardRx], inputs := [.run .main none] } =
      .refused (.twoDrivers (.c .rx)) := rfl

/-- U4 and decision D10: a POP right after CLEAR is refused; an RNOP is not. -/
theorem test_quiet_window_after_clear :
    let s := after (exec (.clear .rx) State.reset) State.reset
    exec (.pop .rx) s = .refused (.clearWindow .rx) ∧ ∃ t, exec (.rnop .rx) s = .next t := ⟨rfl, _, rfl⟩

/-- Rules R247 and R248: an RDA that comes while its handler runs is taken after it. -/
theorem test_rda_is_taken_after_the_running_drain :
    let s := { State.reset with
      uart := { Uart.reset with ready := true }, rda := [.drain], inputs := [.irq .rda] }
    (after (step s) s).rda = [.drain, .drain] := by decide

/-- Rule R210: THRE does not re-fire before new data is loaded. -/
theorem test_thre_does_not_refire :
    let s := { State.reset with
      uart := { Uart.reset with ready := true, thrArmed := false }, inputs := [.irq .thre] }
    after (step s) s = { s with inputs := [] } := by decide

/-! Witnesses: a concrete state and operands that meet all hypotheses of a statement together. -/

theorem witness_DecodeAndEncodeAgree :
    (Instr.push .rx 0xFF#8).wellFormed = true ∧ (∀ F, decode (.w .rx 0x100#9) ≠ .wnop F) ∧
    (∀ F, decode (.d 0b11#2) ≠ .wnop F) :=
  ⟨by decide, fun F => by cases F <;> decide, fun F => by cases F <;> decide⟩

theorem witness_StepRunsTheDecodedInstruction :
    let l : Line := ⟨.w .rx 0x148#9, none⟩
    let s := State.reset.withLines [l]
    let u := { s with rda := [.drain] }
    s.inputs = .line l :: [] ∧ secondDriver (decode l.word) s = none ∧
      u.inputs = .line l :: [] ∧ secondDriver (decode l.word) u = some (.twoDrivers (.w .rx)) := by decide

theorem witness_FetchWordRunsNext :
    tablePortWord 16 511 = .ok (.w .rx 0x1FF#9) ∧ tablePortWord 9 0 = .ok (.w .rx 0#9) ∧
    tablePortWord 8 3 = .ok (.d 3#2) ∧ tablePortWord 8 0 = .ok (.d 0#2) ∧ tablePortWord 1 1 = .ok (.r .rx 1#1) ∧
    secondDriver (decode (.w .rx 0x1FF#9)) State.reset = none ∧
    secondDriver (decode (.w .rx 0x1FF#9)) { State.reset with rda := [.drain] } = some (.twoDrivers (.w .rx)) :=
  ⟨rfl, rfl, rfl, rfl, rfl, rfl, rfl⟩

theorem witness_FlagsAfterResetAndClear : State.reset.rst = false := by decide

theorem witness_RstRiseResetsBothBlocks :
    let s := { withRx (loaded 5) with inputs := [.rst true] }
    let u := { withRx { loaded 5 with clr := true } with inputs := [.rst true] }
    let v := { State.reset with rst := true, inputs := [.rst false] }
    (s.inputs = .rst true :: [] ∧ s.rst = false ∧ s.rx.clr = false ∧ s.tx.clr = false) ∧
    (u.inputs = .rst true :: [] ∧ u.rst = false ∧ u.rx.clr = true) ∧
    (v.inputs = .rst false :: [] ∧ v.rst = true) := by decide

theorem witness_CommandsDuringReset : (State.reset.setRstPin true).rst = true := by decide

theorem witness_PushRule_room : let s := State.reset
    s.rst = false ∧ (s.fifo .rx).inClearWindow = false ∧ (s.fifo .rx).full = false ∧ (s.fifo .rx).wsync ≠ [] := by decide

theorem witness_PushRule_full : let s := withRx (loaded 127)
    s.rst = false ∧ (s.fifo .rx).inClearWindow = false ∧ (s.fifo .rx).full = true ∧ (s.fifo .rx).occTrue = 127 := by
  decide

theorem witness_PushRule_last : let s := withRx (loaded 126)
    s.rst = false ∧ (s.fifo .rx).inClearWindow = false ∧ (s.fifo .rx).Sound ∧
      (∀ g ∈ (s.fifo .rx).rsync, g = (s.fifo .rx).rgray) ∧
      ((s.fifo .rx).rFresh = true → (s.fifo .rx).rgrayPrev = (s.fifo .rx).rgray) ∧ (s.fifo .rx).occTrue = 126 :=
  ⟨by decide, by decide, loaded_sound 126 (by decide), (loaded_settled 126).2.1, (loaded_settled 126).2.2.2, by decide⟩

theorem witness_PushRule_sound_full : let s := withRx (loaded 127)
    s.rst = false ∧ (s.fifo .rx).inClearWindow = false ∧ (s.fifo .rx).Sound ∧ (s.fifo .rx).occTrue = 127 :=
  ⟨by decide, by decide, loaded_sound 127 (by decide), by decide⟩

theorem witness_WnopRule : State.reset.rst = false := by decide

theorem witness_WriteEdgeBookkeeping_wnop :
    let s := (withRx { loaded 1 with rgrayPrev := 0x01#7, rFresh := true }).setLineDraw (some .old)
    s.rst = false ∧ (∃ t, exec (.wnop .rx) s = .next t) ∧ 0 + 1 < (s.fifo .rx).rsync.length ∧
      s.lineDraw = some .old ∧ (s.fifo .rx).rFresh = true ∧ s.draw = .old :=
  ⟨by decide, ⟨_, execWnop_running (by decide)⟩, by decide, by decide, by decide, by decide⟩

theorem witness_WriteEdgeBookkeeping_push :
    State.reset.rst = false ∧ ∃ t, exec (.push .tx 0x00#8) State.reset = .next t :=
  ⟨by decide, _, execPush_room (by decide) (by decide) (by decide)⟩

theorem witness_WritePortFrame :
    (∃ t, exec (.wnop .tx) State.reset = .next t) ∧ (∃ t, exec (.push .tx 0x00#8) State.reset = .next t) ∧
    (withRx (loaded 127)).rx.full = true ∧ (∃ t, exec (.push .rx 0x00#8) (withRx (loaded 127)) = .next t) :=
  ⟨⟨_, execWnop_running (by decide)⟩, ⟨_, execPush_room (by decide) (by decide) (by decide)⟩, by decide,
    ⟨_, execPush_full (by decide) (by decide) (by decide)⟩⟩

theorem witness_PopRule : let s := withRx (loaded 1)
    s.rst = false ∧ (s.fifo .rx).inClearWindow = false ∧ (s.fifo .rx).empty = false ∧
      memRead (s.fifo .rx).mem (s.fifo .rx).rptr.toNat = some 0x55#8 ∧ (s.fifo .rx).rsync ≠ [] := by decide

theorem witness_PopRule_empty : let s := State.reset
    s.rst = false ∧ (s.fifo .tx).inClearWindow = false ∧ (s.fifo .tx).empty = true := by decide

theorem witness_RnopRule : State.reset.rst = false := by decide

theorem witness_ReadEdgeBookkeeping :
    let s := (withRx pushedOne).setLineDraw (some .old)
    s.rst = false ∧ (∃ t, exec (.rnop .rx) s = .next t) ∧ (∃ t, exec (.pop .rx) s = .next t) ∧
      0 + 1 < (s.fifo .rx).wsync.length ∧ (s.fifo .rx).wFresh = true ∧ s.lineDraw = some .old :=
  ⟨by decide, ⟨_, execRnop_running (by decide)⟩, ⟨_, execPop_empty (by decide) (by decide) (by decide)⟩, by decide,
    by decide, by decide⟩

theorem witness_ReadPortFrame :
    (∃ t, exec (.rnop .rx) State.reset = .next t) ∧ (∃ t, exec (.pop .rx) State.reset = .next t) ∧
    (∃ t, exec (.pop .rx) (withRx (loaded 1)) = .next t) ∧ State.reset.rx.empty = true :=
  ⟨⟨_, execRnop_running (by decide)⟩, ⟨_, execPop_empty (by decide) (by decide) (by decide)⟩,
    ⟨_, execPop_some (b := 0x55#8) (by decide) (by decide) (by decide) (by decide)⟩, by decide⟩

theorem witness_ClearRule : (withRx (loaded 127)).rst = false := by decide

theorem witness_ClearFrame : ∃ t, exec (.clear .rx) (withRx (loaded 5)) = .next t :=
  ⟨_, execClear_running (by decide)⟩

theorem witness_PortsRefusedWhileClrIsHigh :
    let s := withRx { Fifo.reset 2 with clr := true }
    let w := withRx { Fifo.reset 2 with wHold := 1 }
    let r := withRx { Fifo.reset 2 with rHold := 3 }
    ((s.fifo .rx).clr = true ∧ s.rst = false ∧ (s.fifo .rx).inClearWindow = true) ∧
    (w.rst = false ∧ (w.fifo .rx).inClearWindow = true) ∧ (r.rst = false ∧ (r.fifo .rx).inClearWindow = true) := by decide

theorem witness_QuietWindowAfterClrFalls :
    let s := { withRx { Fifo.reset 2 with clr := true } with inputs := [.clr .rx false] }
    (s.inputs = .clr .rx false :: [] ∧ s.rst = false ∧ (s.fifo .rx).clr = true) ∧
    (State.reset.rst = false ∧ (State.reset.fifo .tx).clr = false) := by decide

theorem witness_ClrRiseClears :
    let s := { withRx (loaded 5) with inputs := [.clr .rx true] }
    let u := { withRx { loaded 5 with clr := true } with inputs := [.clr .rx true] }
    let v := { s with rda := [.drain] }
    (s.inputs = .clr .rx true :: [] ∧ s.rst = false ∧ (s.fifo .rx).clr = false ∧
      secondDriver (.clear .rx) s = none) ∧
    (v.rst = false ∧ (v.fifo .rx).clr = false ∧ secondDriver (.clear .rx) v = some (.clearOverlap .rx)) ∧
    (u.inputs = .clr .rx true :: [] ∧ u.rst = false ∧ (u.fifo .rx).clr = true) := by decide

theorem witness_display_rules : State.reset.rst = false := by decide

theorem witness_DisplayPortFrame :
    Instr.tick.port = .d ∧ Instr.dnop.port = .d ∧ (∃ t, exec .tick State.reset = .next t) ∧
    (∃ t, exec .tickAdvance State.reset = .next t) := ⟨rfl, rfl, ⟨_, rfl⟩, ⟨_, rfl⟩⟩

theorem witness_ColumnScanCycle : State.reset.rst = false ∧ State.reset.disp.Sound := ⟨by decide, Display.reset_sound⟩

theorem witness_DisplayCursorCycle :
    State.reset.rst = false ∧ State.reset.drives .d = false ∧ State.reset.disp.glyph = 0 ∧
      State.reset.disp.color = 0 := by decide

/-- A refusal of each kind of a command, and of those a step has besides. -/
theorem witness_RefusalsAreTheListedOnes :
    exec .tick (State.reset.setRstPin true) = .refused .commandDuringReset ∧
    exec (.pop .rx) (withRx { Fifo.reset 2 with clr := true }) = .refused (.clearWindow .rx) ∧
    exec (.pop .rx) (withRx { Fifo.reset 2 with rgray := 0x01#7 }) = .refused (.unwrittenSlot .rx) ∧
    (State.reset.Sound ∧
      step (State.reset.setInputs [.call .kick]) = .refused .notInitialised) :=
  ⟨rfl, rfl, rfl, ⟨Fifo.reset_sound 2, Fifo.reset_sound 2, Display.reset_sound⟩, rfl⟩

/-- A command of each kind that changes the registers of its clause. -/
theorem witness_EveryRegisterHasItsWriter :
    (after (exec (.push .rx 0x48#8) State.reset) State.reset).rx.mem ≠ State.reset.rx.mem ∧
    (after (exec (.wnop .rx) (withRx { Fifo.reset 2 with rgray := 0x01#7 })) State.reset).rx.rsync ≠ [0#7, 0#7] ∧
    (after (exec (.pop .rx) (withRx (loaded 1))) State.reset).rx.rptr ≠ (loaded 1).rptr ∧
    (after (exec (.rnop .rx) (withRx { pushedOne with wFresh := false })) State.reset).rx.wsync ≠ pushedOne.wsync ∧
    (after (exec .advance State.reset) State.reset).disp.glyph ≠ State.reset.disp.glyph ∧
    (after (exec .tick State.reset) State.reset).disp.col ≠ State.reset.disp.col := by decide

theorem witness_EventsOfOneCommand :
    (∃ t, exec (.push .rx 0x7F#8) (withRx (loaded 127)) = .next t) ∧ (∃ t, exec (.clear .rx) State.reset = .next t) ∧
    (∃ t, exec .tick State.reset = .next t) :=
  ⟨⟨_, execPush_full (by decide) (by decide) (by decide)⟩, ⟨_, execClear_running (by decide)⟩, ⟨_, rfl⟩⟩

theorem witness_StepKeepsSound :
    State.reset.Sound ∧ ∃ t, step (State.reset.withLines [lineOf (.push .rx 0x48#8) none]) = .next t :=
  ⟨⟨Fifo.reset_sound 2, Fifo.reset_sound 2, Display.reset_sound⟩, _, rfl⟩

theorem witness_runs_from_reset :
    ∃ t, Runs 1 ((State.resetWith 2).setInputs [.line (lineOf (.push .rx 0x48#8) none)]) t ∧ t.rx.pushed = [0x48#8] :=
  ⟨_, rfl, by decide⟩

theorem witness_FlagsAreSafe :
    (loaded 126).Sound ∧ (loaded 126).full = false ∧ (loaded 127).Sound ∧ (loaded 127).full = true ∧
    (loaded 1).Sound ∧ (loaded 1).empty = false ∧ (loaded 0).Sound ∧ (loaded 0).empty = true :=
  ⟨loaded_sound _ (by decide), by decide, loaded_sound _ (by decide), by decide, loaded_sound _ (by decide), by decide,
    loaded_sound _ (by decide), by decide⟩

theorem witness_StaleViewsAreConservative : (loaded 127).Sound := loaded_sound _ (by decide)

theorem witness_PopCompletesWhenSound : let s := withRx (loaded 127)
    (s.fifo .rx).Sound ∧ s.rst = false ∧ (s.fifo .rx).inClearWindow = false ∧ (s.fifo .rx).empty = false :=
  ⟨loaded_sound _ (by decide), by decide, by decide, by decide⟩

theorem witness_FlagsExactWhenSettled :
    (loaded 127).Sound ∧ (∀ g ∈ (loaded 127).wsync, g = (loaded 127).wgray) ∧
      (∀ g ∈ (loaded 127).rsync, g = (loaded 127).rgray) ∧
      (withRx (loaded 127)).rst = false ∧ ((withRx (loaded 127)).fifo .rx).Sound :=
  ⟨loaded_sound _ (by decide), (loaded_settled 127).1, (loaded_settled 127).2.1, by decide, loaded_sound 127 (by decide)⟩

theorem witness_SettledAfterEnoughEdges :
    State.reset.rst = false ∧ [none, some Draw.old, none].length = (State.reset.fifo .rx).wsync.length + 1 ∧
      [none, some Draw.old, none].length = (State.reset.fifo .rx).rsync.length + 1 := by decide

theorem witness_NothingSeenBeforeSEdges :
    State.reset.rst = false ∧ [some Draw.new].length < (State.reset.fifo .rx).wsync.length ∧
      ([] : List (Option Draw)).length < (State.reset.fifo .rx).rsync.length := by decide

theorem witness_OverflowKeepsTheOldest : let s := withRx (loaded 0)
    s.rst = false ∧ (s.fifo .rx).inClearWindow = false ∧ s.drives (.w .rx) = false ∧ (s.fifo .rx).Sound ∧
      (s.fifo .rx).Settled ∧ (s.fifo .rx).occTrue = 0 :=
  ⟨by decide, by decide, by decide, loaded_sound 0 (by decide), loaded_settled 0, by decide⟩

theorem witness_ForbiddenCombinationsAreRefused :
    let a : Line := ⟨.w .rx 0x148#9, none⟩
    let b : Line := ⟨.w .rx 0x000#9, none⟩
    let c : Line := ⟨.c .rx 1#1, none⟩
    (State.reset.setInputs [.together [a, b]]).inputs = .together [a, b] :: [] ∧ a.word.port = b.word.port ∧
      c.word = .c .rx 1#1 ∧ a.word = .w .rx (1#1 ++ 0x48#8) := by decide

/-- After reset, the UART configured, with a sequence of the mainline and one input presented. -/
def running (ts : List Task) (i : Input) : State :=
  { State.reset with uart := { Uart.reset with ready := true }, main := ts, inputs := [i] }

theorem witness_SequencesStartInTurn :
    let c : Call := .send [0x48#8]
    ((State.reset.setInputs [.call c]).inputs = .call c :: [] ∧ State.reset.uart.ready = false) ∧
    ((running [.kick] (.call c)).inputs = .call c :: [] ∧ (running [.kick] (.call c)).uart.ready = true) := by decide

theorem witness_SequencesStartInTurn_irq :
    let s := running [] (.irq .rda)
    let u := running [] (.irq .thre)
    let v := running [] (.irq .err)
    ((State.reset.setInputs [.irq .rda]).inputs = .irq .rda :: [] ∧ State.reset.uart.ready = false) ∧
    (s.inputs = .irq .rda :: [] ∧ s.uart.ready = true ∧ s.rx.inClearWindow = false ∧
      ({ s with rx := { Fifo.reset 2 with wHold := 3 } } : State).rx.inClearWindow = true) ∧
    (u.inputs = .irq .thre :: [] ∧ u.uart.ready = true ∧ u.uart.thrArmed = true ∧ u.disarmThre.uart.thrArmed = false) ∧
    (v.inputs = .irq .err :: [] ∧ v.uart.ready = true) ∧
    (running [] (.irq .timer)).inputs = .irq .timer :: [] := by decide

/-- A line of each kind beside a part that drives its port, and a state in which no sequence runs. -/
theorem witness_SecondDriversAreRefused :
    let s := fun w ts => { State.reset with main := ts, inputs := [.line ⟨w, none⟩] }
    ((s (.w .tx 0x148#9) [.kick, .send .afterEachByte []]).inputs = .line ⟨.w .tx 0x148#9, none⟩ :: [] ∧
      Task.send .afterEachByte [] ∈ (s (.w .tx 0x148#9) [.kick, .send .afterEachByte []]).tasks .main ∧
      (Task.send .afterEachByte []).port = some (.w .tx) ∧ decode (.w .tx 0x148#9) = .push .tx 0x48#8) ∧
    (Task.copy 1 [] ∈ (s (.r .rx 1#1) [.drain, .copy 1 []]).tasks .main ∧ (Task.copy 1 []).port = some (.r .rx) ∧
      decode (.r .rx 1#1) = .pop .rx ∧ decode (.c .rx 1#1) = .clear .rx) ∧
    (((s (.r .tx 1#1) [.kick]).tasks .main).head? = some .kick ∧ Task.kick.port = some (.r .tx) ∧
      decode (.r .tx 1#1) = .pop .tx ∧ decode (.c .tx 1#1) = .clear .tx) ∧
    (Task.advance ∈ (s (.d 2#2) [.advance]).tasks .main ∧ Task.advance.port = some .d ∧
      decode (.d 2#2) = .advance ∧ decode (.d 3#2) = .tickAdvance) ∧
    (State.reset.tasks .main = [] ∧ State.reset.tasks .kicker = [] ∧ State.reset.tasks .rda = [] ∧
      State.reset.tasks .thre = [] ∧ State.reset.tasks .err = []) ∧
    (let c := running [.clearRx, .discardRx] (.run .main none)
     c.inputs = .run .main none :: [] ∧ c.main = .clearRx :: [.discardRx] ∧
      ({ c with rx := { Fifo.reset 2 with clr := true } } : State).rx.clr = true ∧
      ({ c with rda := [.drain] } : State).rda ≠ []) := by decide

theorem witness_SendNeverDrops :
    let s := running [.send .afterEachByte [0x48#8], .done (.count 1)] (.run .main none)
    s.inputs = .run .main none :: [] ∧ s.main = .send .afterEachByte (0x48#8 :: []) :: [.done (.count 1)] ∧
      s.rst = false ∧ s.tx.inClearWindow = false ∧ s.handlerDrives (.w .tx) = false ∧ s.tx.full = false ∧
      ({ s with tx := loaded 127 } : State).tx.full = true := by decide

theorem witness_SendEnqueuesAllWhenThereIsRoom :
    let s := { State.reset with
      tx := loaded 125, main := [.send .afterAllBytes [0x48#8, 0x69#8]], inputs := [.run .main none, .run .main none] }
    s.inputs = [none, none].map (.run .main) ∧ s.main = .send .afterAllBytes [0x48#8, 0x69#8] :: [] ∧ s.rst = false ∧
      s.tx.inClearWindow = false ∧ s.handlerDrives (.w .tx) = false ∧ s.tx.Sound ∧ s.tx.occW + 2 ≤ 127 :=
  ⟨by decide, by decide, by decide, by decide, by decide, loaded_sound 125 (by decide), by decide⟩

theorem witness_PrintLineIsTwoSends :
    [0x48#8, 0x00#8, 0x69#8] = [0x48#8] ++ 0x00#8 :: [0x69#8] ∧ (∀ b ∈ [0x48#8], b ≠ 0x00#8) ∧
      0x48#8 ∈ lineText [0x48#8, 0x00#8, 0x69#8] := by decide

theorem witness_KickSendsOneByte :
    let s := { State.reset with
      tx := loaded 1, uart := { Uart.reset with txIdle := true }, main := [.kick], inputs := [.run .main none] }
    s.inputs = .run .main none :: [] ∧ s.main = .kick :: [] ∧ s.rst = false ∧ s.tx.inClearWindow = false ∧
      s.handlerDrives (.r .tx) = false ∧ s.tx.Sound ∧ s.uart.txIdle = true ∧ s.tx.empty = false ∧
      (loaded 0).empty = true ∧ (loaded 0).Sound :=
  ⟨by decide, by decide, by decide, by decide, by decide, loaded_sound 1 (by decide), by decide, by decide, by decide,
    loaded_sound 0 (by decide)⟩

theorem witness_RepeatedKickWaitsForTheByte :
    let s := { State.reset with
      tx := loaded 1, uart := { Uart.reset with txIdle := true }, kicker := [.rekick], inputs := [.run .kicker none] }
    s.inputs = .run .kicker none :: [] ∧ s.kicker = .rekick :: [] ∧ s.rst = false ∧ s.tx.inClearWindow = false ∧
      s.handlerDrives (.r .tx) = false ∧ s.tx.Sound ∧ s.uart.txIdle = true ∧ s.tx.empty = false ∧
      (loaded 0).empty = true :=
  ⟨by decide, by decide, by decide, by decide, by decide, loaded_sound 1 (by decide), by decide, by decide, by decide⟩

theorem witness_PumpLoadsUntilEmpty :
    let s := { State.reset with tx := loaded 1, thre := [.pump], inputs := [.run .thre none] }
    s.inputs = .run .thre none :: [] ∧ s.thre = .pump :: [] ∧ s.rst = false ∧ s.tx.inClearWindow = false ∧ s.tx.Sound ∧
      s.tx.empty = false ∧ (loaded 0).empty = true :=
  ⟨by decide, by decide, by decide, by decide, loaded_sound 1 (by decide), by decide, by decide⟩

theorem witness_DrainStep :
    let s := { State.reset with
      uart := { Uart.reset with rxFifo := [0x31#8] }, rda := [.drain], inputs := [.run .rda none] }
    let m := { s with rda := [], main := [.drain, .copy 1 []], inputs := [.run .main none] }
    (s.inputs = .run .rda none :: [] ∧ s.tasks .rda = .drain :: [] ∧ s.rst = false ∧ s.rx.inClearWindow = false ∧
      s.uart.rxFifo = 0x31#8 :: [] ∧ s.rx.full = false ∧ ({ s with rx := loaded 127 } : State).rx.full = true) ∧
    (m.inputs = .run .main none :: [] ∧ m.tasks .main = .drain :: [.copy 1 []] ∧ m.handlerDrives (.w .rx) = false ∧
      m.rst = false ∧ m.rx.inClearWindow = false) := by decide

theorem witness_ReceiveCopyStep :
    let s := { State.reset with rx := loaded 1, main := [.copy 10 []], inputs := [.run .main none] }
    s.inputs = .run .main none :: [] ∧ s.main = .copy 10 [] :: [] ∧ s.rst = false ∧ s.rx.inClearWindow = false ∧
      s.handlerDrives (.r .rx) = false ∧ s.rx.Sound ∧ ([] : List Byte).length < 10 ∧ s.rx.empty = false :=
  ⟨by decide, by decide, by decide, by decide, by decide, loaded_sound 1 (by decide), by decide, by decide⟩

theorem witness_ClearReceiveThenNothingPending :
    let ins : List Input := [.call .clearReceive, .run .main none, .run .main none, .call .hasPending, .run .main none]
    let s := { State.reset with
      rx := loaded 3, uart := { Uart.reset with ready := true, rxFifo := [0x31#8] }, inputs := ins }
    s.inputs = ins ++ [] ∧ s.uart.ready = true ∧ s.main = [] ∧ s.rda = [] ∧ s.handlerDrives (.c .rx) = false ∧
      s.rst = false ∧ s.rx.clr = false ∧ s.uart.rxFifo.length ≤ 1 ∧
      (running [.pollPending] (.run .main none)).main = .pollPending :: [] := by decide

theorem witness_ErrDutyTouchesNoFifo :
    let s := { State.reset with
      uart := { Uart.reset with ready := true, lineError := true, rxFifo := [0x31#8, 0x32#8] },
      inputs := [.irq .err, .run .err none, .run .err none] }
    s.inputs = .irq .err :: .run .err none :: .run .err none :: [] ∧ s.uart.ready = true ∧ s.err = [] ∧
      s.uart.rxFifo.tail = [0x32#8] := by decide

end Sys2Proof.Tests
end

section
/-! The frame of the display port (rule R2): its instructions replace the display and nothing else. -/

namespace Sys2Proof.Machine

@[simp] theorem State.setDisp_self (s : State) : s.setDisp s.disp = s := rfl

theorem State.sameOutsideDisplay_setDisp (s : State) (d : Display) : s.SameOutsideDisplay (s.setDisp d) := by
  simp [State.SameOutsideDisplay, State.SameSurroundings]

/-- All that a command of the display port can do (rules R171 to R175). -/
theorem exec_displayPort_next {i : Instr} {s t : State} (hp : i.port = .d) (h : exec i s = .next t) :
    ∃ d, t = s.setDisp d := by
  cases i with
  | push | wnop | pop | rnop | clear | cnop => cases hp
  | dnop => cases h; exact ⟨s.disp, s.setDisp_self.symm⟩
  | tick =>
    obtain ⟨-, rfl⟩ := execTick_next h
    exact ⟨_, rfl⟩
  | advance =>
    obtain ⟨-, rfl⟩ := execAdvance_next h
    exact ⟨_, rfl⟩
  | tickAdvance =>
    obtain ⟨-, rfl⟩ := execTickAdvance_next h
    exact ⟨_, rfl⟩

/-- Settles O28: every command of the display port that answers replaces the display alone. -/
theorem displayPortFrame : Obligations.DisplayPortFrame := by
  intro i s t hp h
  obtain ⟨d, rfl⟩ := exec_displayPort_next hp h
  exact ⟨s.sameOutsideDisplay_setDisp d, fun F a => by rw [State.setDisp_fifo]⟩

end Sys2Proof.Machine
end

section
/-! A FIFO whose cursors, gray images and synchroniser stages are 0 (rule R30), and the registers after reset
(rule R46). -/

namespace Sys2Proof.Machine

/-- The registers of rule R30 are 0: cursors, gray images and every synchroniser stage. -/
structure Fifo.Zeroed (f : Fifo) : Prop where
  wptr : f.wptr = 0#7
  rptr : f.rptr = 0#7
  wgray : f.wgray = 0#7
  rgray : f.rgray = 0#7
  wsync : ∀ g ∈ f.wsync, g = 0#7
  rsync : ∀ g ∈ f.rsync, g = 0#7

theorem Fifo.reset_zeroed (n : Nat) : (Fifo.reset n).Zeroed :=
  ⟨rfl, rfl, rfl, rfl, fun _ => List.eq_of_mem_replicate, fun _ => List.eq_of_mem_replicate⟩

theorem Fifo.cleared_zeroed (f : Fifo) : f.cleared.Zeroed :=
  ⟨rfl, rfl, rfl, rfl, fun _ => List.eq_of_mem_replicate, fun _ => List.eq_of_mem_replicate⟩

namespace Fifo.Zeroed

variable {f : Fifo} (h : f.Zeroed)
include h

theorem wseen : f.wseen = 0#7 := by rw [Fifo.wseen, h.wgray, getLastD_of_all h.wsync]

theorem rseen : f.rseen = 0#7 := by rw [Fifo.rseen, h.rgray, getLastD_of_all h.rsync]

theorem empty : f.empty = true := by simp [Fifo.empty, h.rgray, h.wseen]

theorem full : f.full = false := by rw [Fifo.full, h.wptr, h.rseen]; decide

theorem occTrue : f.occTrue = 0 := by rw [Fifo.occTrue, h.wptr, h.rptr]; rfl

theorem occW : f.occW = 0 := by rw [Fifo.occW, h.wptr, h.rseen]; rfl

theorem occR : f.occR = 0 := by rw [Fifo.occR, h.rptr, h.wseen]; rfl

/-- Rule R30 as a whole: the registers, and what is derived from them. -/
theorem registers_and_flags :
    f.wptr = 0#7 ∧ f.rptr = 0#7 ∧ f.wgray = 0#7 ∧ f.rgray = 0#7 ∧ (∀ g ∈ f.wsync, g = 0#7) ∧ (∀ g ∈ f.rsync, g = 0#7) ∧
    f.wseen = 0#7 ∧ f.rseen = 0#7 ∧ f.empty = true ∧ f.full = false ∧ f.occTrue = 0 ∧ f.occW = 0 ∧ f.occR = 0 :=
  ⟨h.wptr, h.rptr, h.wgray, h.rgray, h.wsync, h.rsync, h.wseen, h.rseen, h.empty, h.full, h.occTrue, h.occW, h.occR⟩

end Fifo.Zeroed

@[simp] theorem State.resetWith_fifo (n : Nat) (F : Inst) : (State.resetWith n).fifo F = Fifo.reset n := by
  cases F <;> rfl

/-- Settles O6: reset and CLEAR both leave the FIFO zeroed, and a zeroed FIFO shows what rule R30 says. -/
theorem flagsAfterResetAndClear : Obligations.FlagsAfterResetAndClear := by
  refine ⟨fun n F => ?_, fun F s hr => ⟨s.clearFifo F, execClear_running hr, ?_⟩⟩
  · rw [State.resetWith_fifo]
    exact (Fifo.reset_zeroed n).registers_and_flags
  · rw [State.clearFifo_fifo_same]
    exact (s.fifo F).cleared_zeroed.registers_and_flags

/-- Settles O7: the stored values are those of the reset records, and the flags those of a zeroed FIFO. -/
theorem registersAtReset : Obligations.RegistersAtReset := by
  refine ⟨fun F => ?_, rfl, rfl, rfl, rfl, rfl, rfl, rfl⟩
  have h := Fifo.reset_zeroed Config.syncStages
  rw [State.reset, State.resetWith_fifo]
  exact ⟨rfl, rfl, rfl, rfl, rfl, rfl, rfl, rfl, rfl, rfl, h.empty, h.full⟩

end Sys2Proof.Machine
end

section
/-! The gray code bit by bit (rule R23). It is linear over exclusive-or, and adding 1 flips a run of low bits, which the
code takes to its top bit alone. -/

namespace Sys2Proof.Machine

theorem gray_getLsbD (b : Cursor) (i : Nat) : (gray b).getLsbD i = (b.getLsbD i ^^ b.getLsbD (i + 1)) := by
  simp [gray, Nat.add_comm 1 i]

/-- The recurrence of rule R23, read off the bits of `gray (ungray g) = g`. -/
theorem ungray_getLsbD (g : Cursor) (i : Nat) :
    (ungray g).getLsbD i = (g.getLsbD i ^^ (ungray g).getLsbD (i + 1)) := by
  have h : g.getLsbD i = ((ungray g).getLsbD i ^^ (ungray g).getLsbD (i + 1)) := by
    rw [← gray_getLsbD, gray_ungray]
  rw [h, Bool.xor_assoc, Bool.xor_self, Bool.xor_false]

theorem gray_xor (a b : Cursor) : gray a ^^^ gray b = gray (a ^^^ b) := by
  simp only [gray, BitVec.ushiftRight_xor_distrib]
  ac_rfl

/-- Bits 0 to `i` of a cursor. -/
def lowBits (i : Fin 7) : Cursor := BitVec.ofNat 7 (2 ^ (i.val + 1) - 1)

theorem xor_add_one (b : Cursor) : ∃ i, b ^^^ (b + 1#7) = lowBits i := by revert b; decide

theorem gray_lowBits (i : Fin 7) : gray (lowBits i) = 1#7 <<< i.val := by revert i; decide

/-- One bit changes from each image to the next, from the last to the first included. -/
theorem gray_xor_gray_add_one (b : Cursor) : ∃ i : Fin 7, gray b ^^^ gray (b + 1#7) = 1#7 <<< i.val := by
  obtain ⟨i, hi⟩ := xor_add_one b
  exact ⟨i, by rw [gray_xor, hi, gray_lowBits]⟩

/-- Settles O46: the two inverses, the recurrence with nothing above bit 6, the one-bit change, and the values listed. -/
theorem grayCode : Obligations.GrayCode := by
  refine ⟨fun _ => rfl, ungray_gray, gray_ungray, fun g => ?_, fun g i => ungray_getLsbD g i, gray_xor_gray_add_one, ?_⟩
  · rw [ungray_getLsbD, BitVec.getLsbD_of_ge _ 7 le_rfl, Bool.xor_false]
  · decide

end Sys2Proof.Machine
end

section
/-! Stale views (rule R71): domain W counts from a read cursor no newer than the true one, domain R to a write cursor no
newer than the true one, so the two seen occupancies enclose the true one. -/

namespace Sys2Proof.Machine

namespace Fifo.Sound

variable {f : Fifo} (h : f.Sound)
include h

/-- A write cursor seen late leaves bytes out. -/
theorem occR_le_occTrue : f.occR ≤ f.occTrue := by
  obtain ⟨k, -, hocc, -, hk⟩ := h.occR_count
  rw [hocc, h.occTrue_count]
  exact Nat.sub_le_sub_right hk _

/-- A read cursor seen late counts bytes already taken. -/
theorem occTrue_le_occW : f.occTrue ≤ f.occW := by
  obtain ⟨k, -, hocc, hk, -⟩ := h.occW_count
  rw [hocc, h.occTrue_count]
  exact Nat.sub_le_sub_left hk _

/-- Even the oldest view of the read cursor is within the capacity of rule R140 (I3). -/
theorem occW_le_capacity : f.occW ≤ 127 := by
  obtain ⟨k, -, hocc, -, hroom⟩ := h.occW_count
  rw [hocc]
  exact Nat.sub_le_iff_le_add'.2 hroom

end Fifo.Sound

/-- Settles O39: each seen cursor has its count from the synchroniser's invariant, and the occupancies are the
differences of those counts. -/
theorem staleViewsAreConservative : Obligations.StaleViewsAreConservative := by
  intro f h
  obtain ⟨r, hr, -, hrle, -⟩ := h.rseen_count
  obtain ⟨w, hw, -, hwle, -⟩ := h.wseen_count
  exact ⟨⟨r, hrle, hr, h.rgray_eq⟩, ⟨w, hwle, hw, h.wgray_eq⟩, h.occR_le_occTrue, h.occTrue_le_occW,
    h.occW_le_capacity, h.occTrue_count⟩

end Sys2Proof.Machine
end

section
/-! Each format is decided by its control bits, and each row's mask keeps just those bits (rules R93 to R99): bit 8 of
format W, the one bit of formats R and C, both bits of format D. -/

namespace Sys2Proof

/-! Format W: the word as its enable bit and its byte, and the decoder on each value of the enable bit. -/

@[simp] theorem wEn_append (e : BitVec 1) (b : Byte) : wEn (e ++ b) = e.getLsbD 0 := by
  rw [wEn, BitVec.getLsbD_append]; rfl

@[simp] theorem wData_append (e : BitVec 1) (b : Byte) : wData (e ++ b) = b := by
  rw [wData, BitVec.extractLsb'_append_eq_right]

theorem decode_w_of_wEn {F : Inst} {word : BitVec 9} (h : wEn word = true) :
    decode (.w F word) = .push F (wData word) := by
  simp [decode, decodeW, h]

theorem decode_w_of_not_wEn {F : Inst} {word : BitVec 9} (h : wEn word = false) : decode (.w F word) = .wnop F := by
  simp [decode, decodeW, h]

/-- Settles O1: bit 8 of `e ++ b` is `e` and the byte below it is `b`; other formats have no free bit. -/
theorem wordsDecodeAsTheTableSays : Obligations.WordsDecodeAsTheTableSays := by
  refine fun F => ⟨fun b => ?_, fun u => ?_, rfl, rfl, rfl, rfl, rfl, rfl, rfl, rfl⟩
  · rw [decode_w_of_wEn (wEn_append 1#1 b), wData_append]
  · exact decode_w_of_not_wEn (wEn_append 0#1 u)

theorem decode_port (word : PortWord) : (decode word).port = word.port := by
  cases word with
  | w F word =>
    cases h : wEn word
    · rw [decode_w_of_not_wEn h]; rfl
    · rw [decode_w_of_wEn h]; rfl
  | r F word => obtain rfl | rfl := BitVec.eq_zero_or_eq_one word <;> rfl
  | c F word => obtain rfl | rfl := BitVec.eq_zero_or_eq_one word <;> rfl
  | d word => revert word; decide

/-- The mnemonics of the rows of the opcode map that cover a word (rule R98). -/
def coveringMnemonics (word : PortWord) : List String :=
  (opcodeMap.filter fun row => row.covers word).map fun row => row.mnemonic

/-- The mask of the rows of format W keeps `w_en` alone. -/
theorem toNat_and_wMask (word : BitVec 9) : word.toNat &&& 0x100 = (wEn word).toNat * 0x100 :=
  Nat.and_two_pow word.toNat 8

theorem coveringMnemonics_w (F : Inst) (word : BitVec 9) :
    coveringMnemonics (.w F word) = [if wEn word then "PUSH" else "WNOP"] := by
  cases h : wEn word <;> simp [coveringMnemonics, opcodeMap, OpcodeRow.covers, toNat_and_wMask, h]

theorem coveringMnemonics_eq (word : PortWord) : coveringMnemonics word = [(decode word).mnemonic] := by
  cases word with
  | w F word =>
    rw [coveringMnemonics_w]
    cases h : wEn word
    · rw [decode_w_of_not_wEn h]; rfl
    · rw [decode_w_of_wEn h]; rfl
  | r F word => obtain rfl | rfl := BitVec.eq_zero_or_eq_one word <;> rfl
  | c F word => obtain rfl | rfl := BitVec.eq_zero_or_eq_one word <;> rfl
  | d word => revert word; decide

/-- Settles O2: in format W the rows test bit 8, as the decoder does; the other formats have at most four words. -/
theorem everyWordFitsExactlyOneRow : Obligations.EveryWordFitsExactlyOneRow :=
  fun word => ⟨coveringMnemonics_eq word, decode_port word⟩

end Sys2Proof
end

section
/-! A change of the level of the clear pin (rule R95), one lemma per answer. -/

namespace Sys2Proof.Machine

section
variable {s : State} {F : Inst}

/-- A level of the clear pin presented next is set as a level of the pin. -/
theorem step_clr {level : Bool} {rest : List Input} (h : s.inputs = .clr F level :: rest) :
    step s = setClr F level (s.setInputs rest) := by simp [step, h]

theorem setClr_same {level : Bool} (hc : (s.fifo F).clr = level) : setClr F level s = .next s := by
  simp [setClr, hc]

theorem setClr_rise_alone (hr : s.rst = false) (hc : (s.fifo F).clr = false)
    (hd : secondDriver (.clear F) s = none) :
    setClr F true s = .next ((s.clearFifo F).setFifo F (s.fifo F).cleared.raiseClr) := by
  simp [setClr, hc, hd, execClear_running hr]

theorem setClr_rise_second {q : Refusal} (hc : (s.fifo F).clr = false) (hd : secondDriver (.clear F) s = some q) :
    setClr F true s = .refused q := by
  simp [setClr, hc, hd]

end

/-- Settles O23: a rise with no sequence on the instance is CLEAR and then the level, a rise beside one is the second
driver's refusal, and a level that stays changes nothing. -/
theorem clrRiseClears : Obligations.ClrRiseClears := by
  intro F s rest hin hr
  rw [step_clr hin, ← secondDriver_setInputs (.clear F) rest, ← State.setInputs_fifo (s := s) (is := rest)]
  refine ⟨fun hc hd => ⟨_, setClr_rise_alone hr hc hd, ?_, ?_⟩, fun hc q => setClr_rise_second hc, setClr_same⟩
  · rw [State.fifo_setFifo_same]
  · rw [State.setFifo_history, State.clearFifo_history, State.setInputs_history]

end Sys2Proof.Machine
end

section
/-! The edges of the two domains (rules R120, R126, R128, R129): what an edge samples and shifts, and the idle commands,
which do nothing else. -/

namespace Sys2Proof.Machine

/-- Rule R126: only the old draw of a fresh source gives the value before its most recent edge. -/
theorem sample_eq (fresh : Bool) (cur prev : Cursor) (d : Draw) :
    sample fresh cur prev d = if fresh = true ∧ d = .old then prev else cur := by
  cases fresh <;> cases d <;> rfl

theorem State.draw_of_lineDraw {s : State} {d : Draw} (h : s.lineDraw = some d) : s.draw = d := by
  simp [State.draw, h]

section
variable {s t : State} {F : Inst} {i : Instr}

/-- Every write edge ends with the bookkeeping of rule R128, whatever its command wrote. -/
theorem exec_writeEdge_fifo (hi : i = .wnop F ∨ ∃ b, i = .push F b) (hr : s.rst = false) (h : exec i s = .next t) :
    ∃ post, t.fifo F = (s.fifo F).bookW s.draw post := by
  obtain rfl | ⟨b, rfl⟩ := hi
  · rw [show exec (.wnop F) s = _ from execWnop_running hr] at h
    cases h
    exact ⟨_, State.edgeW_fifo_same ..⟩
  · obtain ⟨-, -, ⟨-, rfl⟩ | ⟨-, rfl⟩⟩ := execPush_next h
    · exact ⟨_, by rw [State.record_fifo, State.edgeW_fifo_same]⟩
    · exact ⟨_, State.edgeW_fifo_same ..⟩

/-- Every read edge ends with the bookkeeping of rule R129, whatever its command wrote. -/
theorem exec_readEdge_fifo (hi : i = .rnop F ∨ i = .pop F) (hr : s.rst = false) (h : exec i s = .next t) :
    ∃ post, t.fifo F = (s.fifo F).bookR s.draw post := by
  obtain rfl | rfl := hi
  · rw [show exec (.rnop F) s = _ from execRnop_running hr] at h
    cases h
    exact ⟨_, State.edgeR_fifo_same ..⟩
  · obtain ⟨-, -, ⟨-, rfl⟩ | ⟨-, b, -, rfl⟩⟩ := execPop_next h
    · exact ⟨_, by rw [State.record_fifo, State.edgeR_fifo_same]⟩
    · exact ⟨_, State.edgeR_fifo_same ..⟩

end

/-- Settles O12: a write edge is its bookkeeping, whose shift takes the sample of `rgray`. -/
theorem writeEdgeBookkeeping : Obligations.WriteEdgeBookkeeping := by
  intro F i s t hi hr h
  obtain ⟨post, hpost⟩ := exec_writeEdge_fifo hi hr h
  rw [hpost, Fifo.bookW_rsync, sample_eq]
  exact ⟨shiftIn_length _, fun _ => shiftIn_succ _, shiftIn_zero _, fun _ => State.draw_of_lineDraw, rfl, rfl, rfl⟩

/-- Settles O16: a read edge is its bookkeeping, whose shift takes the sample of `wgray`. -/
theorem readEdgeBookkeeping : Obligations.ReadEdgeBookkeeping := by
  intro F i s t hi hr h
  obtain ⟨post, hpost⟩ := exec_readEdge_fifo hi hr h
  rw [hpost, Fifo.bookR_wsync, sample_eq]
  exact ⟨shiftIn_length _, fun _ => shiftIn_succ _, shiftIn_zero _, fun _ => State.draw_of_lineDraw, rfl, rfl, rfl⟩

theorem Fifo.full_iff (f : Fifo) : f.full = true ↔ gray (f.wptr + 1#7) = f.rseen := decide_eq_true_iff

theorem Fifo.empty_iff (f : Fifo) : f.empty = true ↔ f.rgray = f.wseen := decide_eq_true_iff

/-- Settles O11: WNOP is a write edge without a command part. -/
theorem wnopRule : Obligations.WnopRule := by
  intro F s hr
  obtain ⟨-, hwnop, -⟩ := wordsDecodeAsTheTableSays F
  refine ⟨hwnop, s.edgeW F (s.fifo F), execWnop_running hr, ?_⟩
  rw [State.edgeW_fifo_same, State.edgeW_history, Fifo.full_iff, Fifo.bookW_rsync, sample_eq]
  exact ⟨rfl, rfl, rfl, rfl, rfl, rfl, rfl, rfl, rfl, Iff.rfl⟩

/-- Settles O15: RNOP is a read edge without a command part. -/
theorem rnopRule : Obligations.RnopRule := by
  intro F s hr
  refine ⟨rfl, s.edgeR F (s.fifo F), execRnop_running hr, ?_⟩
  rw [State.edgeR_fifo_same, State.edgeR_history, Fifo.empty_iff, Fifo.bookR_wsync, sample_eq]
  exact ⟨rfl, rfl, rfl, rfl, rfl, rfl, rfl, rfl, rfl, Iff.rfl⟩

end Sys2Proof.Machine
end

section
/-! The flags as occupancies (rule R141): `full` and `empty` say that the seen occupancy is 127 or 0, and the seen
occupancy is the true one where the synchroniser holds the other domain's cursor as it is (rule R145). -/

namespace Sys2Proof.Machine

namespace Fifo.Sound

variable {f : Fifo} (h : f.Sound)
include h

theorem occW_eq_occTrue (hs : ∀ g ∈ f.rsync, g = f.rgray) : f.occW = f.occTrue := by
  rw [Fifo.occW, Fifo.rseen, getLastD_of_all hs, h.rgray_image, ungray_gray, Fifo.occTrue]

theorem occR_eq_occTrue (hs : ∀ g ∈ f.wsync, g = f.wgray) : f.occR = f.occTrue := by
  rw [Fifo.occR, Fifo.wseen, getLastD_of_all hs, h.wgray_image, ungray_gray, Fifo.occTrue]

/-- The next write cursor meets the seen read cursor modulo 128 only when it is 128 ahead of it. -/
theorem full_iff_occW : f.full = true ↔ f.occW = 127 := by
  obtain ⟨k, hseen, hocc, hk, hroom⟩ := h.occW_count
  have hcounts := h.counts
  have hnext : gray (f.wptr + 1#7) = grayAt (f.pushed.length + 1) := by
    rw [h.wptr_count]
    exact congrArg gray (nextCursor_ofNat _)
  rw [Fifo.full_iff, hnext, hseen, grayAt_eq, hocc]
  omega

/-- The read cursor meets the seen write cursor modulo 128 only when they are equal counts. -/
theorem empty_iff_occR : f.empty = true ↔ f.occR = 0 := by
  obtain ⟨k, hseen, hocc, hlo, hhi⟩ := h.occR_count
  have hroom := h.room
  rw [Fifo.empty_iff, hseen, h.rgray_eq, grayAt_eq, hocc]
  omega

theorem full_of_occTrue (hocc : f.occTrue = 127) : f.full = true :=
  h.full_iff_occW.2 (Nat.le_antisymm h.occW_le_capacity (hocc ▸ h.occTrue_le_occW))

theorem full_iff_occTrue (hs : ∀ g ∈ f.rsync, g = f.rgray) : f.full = true ↔ f.occTrue = 127 := by
  rw [h.full_iff_occW, h.occW_eq_occTrue hs]

theorem empty_iff_occTrue (hs : ∀ g ∈ f.wsync, g = f.wgray) : f.empty = true ↔ f.occTrue = 0 := by
  rw [h.empty_iff_occR, h.occR_eq_occTrue hs]

end Fifo.Sound

/-- Settles O38: a stale flag leaves room, or a byte, in the true counts; the seen occupancies decide the flags. -/
theorem flagsAreSafe : Obligations.FlagsAreSafe := by
  refine fun f h => ⟨fun hf => ?_, fun he => ?_, h.full_iff_occW, h.empty_iff_occR⟩
  · obtain ⟨hroom, -⟩ := h.room_of_not_full hf
    rw [h.occTrue_count]
    omega
  · obtain ⟨hlt, -⟩ := h.bytes_of_not_empty he
    refine ⟨?_, h.read_oldest hlt, by simp [hlt]⟩
    rw [h.occTrue_count]
    omega

end Sys2Proof.Machine
end

section
/-! PUSH, POP, CLEAR and CNOP (rules R121, R123, R125, R127). -/

namespace Sys2Proof.Machine

theorem mem_shiftIn {stages : List Cursor} {x g : Cursor} (h : g ∈ shiftIn stages x) : g = x ∨ g ∈ stages :=
  List.mem_cons.1 (List.mem_of_mem_dropLast h)

/-- Domain W sees the read cursor as it is, and no draw can bring it an older one: the half of `Fifo.Settled` that a
PUSH depends on. -/
structure Fifo.ReadCursorSeen (f : Fifo) : Prop where
  stages : ∀ g ∈ f.rsync, g = f.rgray
  fresh : f.rFresh = true → f.rgrayPrev = f.rgray

/-- Write edges leave it so: with nothing new in domain R each sample is the read cursor's image again. -/
theorem Fifo.ReadCursorSeen.bookW {f post : Fifo} (h : f.ReadCursorSeen) (hpost : post.rgray = f.rgray) (d : Draw) :
    (f.bookW d post).ReadCursorSeen := by
  have hsample : sample f.rFresh f.rgray f.rgrayPrev d = f.rgray := by
    rw [sample_eq]
    split
    · next hold => exact h.fresh hold.1
    · rfl
  refine ⟨fun g hg => ?_, by simp⟩
  rw [Fifo.bookW_rsync, hsample] at hg
  rw [Fifo.bookW_rgray, hpost]
  exact (mem_shiftIn hg).elim id (h.stages g)

namespace Fifo.Sound

variable {f : Fifo} (h : f.Sound)
include h

/-- An effective PUSH adds one to the bytes held. -/
theorem occTrue_bookW_store (d : Draw) (b : Byte) (hf : f.full = false) :
    (f.bookW d (f.store b)).occTrue = f.occTrue + 1 := by
  have hcounts := h.counts
  rw [(h.bookW_store d b hf).occTrue_count, h.occTrue_count]
  simp only [Fifo.bookW_pushed, Fifo.store_pushed, Fifo.bookW_delivered, Fifo.store_delivered, List.length_append,
    List.length_singleton]
  omega

/-- The 127th byte is effective and sets `full` (rule R121). -/
theorem push_fills (hs : f.ReadCursorSeen) (hocc : f.occTrue = 126) (d : Draw) (b : Byte) :
    f.full = false ∧ (f.bookW d (f.store b)).full = true := by
  have hf : f.full = false := by
    rw [← Bool.not_eq_true, h.full_iff_occTrue hs.stages]
    omega
  refine ⟨hf, (h.bookW_store d b hf).full_of_occTrue ?_⟩
  rw [h.occTrue_bookW_store d b hf, hocc]

end Fifo.Sound

/-- Settles O10: by `full`, PUSH stores its byte or only records it. -/
theorem pushRule : Obligations.PushRule := by
  intro F b s hr hw
  obtain ⟨hpush, -⟩ := wordsDecodeAsTheTableSays F
  refine ⟨hpush b, ?_⟩
  cases hf : (s.fifo F).full with
  | true =>
    refine ⟨_, execPush_full hr hw hf, ?_⟩
    rw [State.record_fifo, State.edgeW_fifo_same]
    refine ⟨nofun, fun _ => ⟨rfl, rfl, rfl, rfl, by simp⟩, Fifo.bookW_empty _ _ _ rfl rfl, fun h h1 h2 hocc => ?_,
      fun _ _ => rfl⟩
    exact absurd hf (by simp [h.push_fills ⟨h1, h2⟩ hocc s.draw b])
  | false =>
    refine ⟨_, execPush_room hr hw hf, ?_⟩
    rw [State.edgeW_fifo_same]
    refine ⟨fun _ => ⟨memRead_memWrite_same .., fun i hi => memRead_memWrite_other _ _ hi, nextCursor_toNat _, rfl, rfl,
      by simp⟩, nofun, Fifo.bookW_empty _ _ _ rfl rfl, fun h h1 h2 hocc => ?_, fun h hocc => ?_⟩
    · exact ⟨rfl, (h.push_fills ⟨h1, h2⟩ hocc s.draw b).2⟩
    · rw [← hf, h.full_of_occTrue hocc]

theorem State.rData_of_not_empty {s : State} {F : Inst} {b : Byte} (he : (s.fifo F).empty = false)
    (hb : memRead (s.fifo F).mem (s.fifo F).readIndex = some b) : s.rData F = b := by
  simp [State.rData, he, hb]

theorem execPop_unwritten {s : State} {F : Inst} (hr : s.rst = false) (hw : (s.fifo F).inClearWindow = false)
    (he : (s.fifo F).empty = false) (hn : memRead (s.fifo F).mem (s.fifo F).readIndex = none) :
    execPop F s = .refused (.unwrittenSlot F) := by
  simp [execPop, hr, hw, he, hn]

/-- Settles O14: by `empty`, and then by the slot at `rptr`, POP delivers its byte, records an underflow, or is refused. -/
theorem popRule : Obligations.PopRule := by
  intro F s hr hw
  refine ⟨rfl, fun b he hb => ⟨State.rData_of_not_empty he hb, _, execPop_some hr hw he hb, ?_⟩,
    fun he => ⟨_, execPop_empty hr hw he, ?_⟩, fun he hn => ?_⟩
  · rw [State.edgeR_fifo_same]
    exact ⟨rfl, rfl, nextCursor_toNat _, rfl, rfl, State.edgeR_history .., Fifo.bookR_full _ _ _ rfl rfl⟩
  · rw [State.record_fifo, State.edgeR_fifo_same]
    exact ⟨rfl, rfl, rfl, rfl, rfl, by simp, Fifo.bookR_full _ _ _ rfl rfl⟩
  · exact execPop_unwritten hr hw he hn

/-- CLEAR is idempotent (rule R125). -/
theorem Fifo.cleared_cleared (f : Fifo) : f.cleared.cleared = f.cleared := by simp [Fifo.cleared]

/-- Settles O18: CLEAR leaves the zeroed FIFO of rule R30. -/
theorem clearRule : Obligations.ClearRule := by
  intro F s hr
  have hz := (s.fifo F).cleared_zeroed
  refine ⟨rfl, s.clearFifo F, execClear_running hr, ?_⟩
  rw [State.clearFifo_fifo_same]
  refine ⟨rfl, rfl, rfl, rfl, by simp, hz.wsync, by simp, hz.rsync, rfl, rfl, rfl, rfl, rfl, s.clearFifo_history F,
    hz.empty, hz.full, _, execClear_running (by rw [State.clearFifo_rst, hr]), ?_⟩
  rw [State.clearFifo_fifo_same, State.clearFifo_fifo_same, Fifo.cleared_cleared]

/-- Settles O20: CNOP answers the state it is given. -/
theorem cnopRule : Obligations.CnopRule := fun _ _ => ⟨rfl, rfl⟩

end Sys2Proof.Machine
end

section
/-! Every state a run reaches from reset is sound (rule R140), so what holds of sound instances holds of it. -/

namespace Sys2Proof.Machine

theorem State.Sound.fifo {s : State} (h : s.Sound) (F : Inst) : (s.fifo F).Sound := by
  cases F with
  | rx => exact h.rx
  | tx => exact h.tx

theorem State.resetWith_sound (n : Nat) : (State.resetWith n).Sound :=
  ⟨Fifo.reset_sound n, Fifo.reset_sound n, Display.reset_sound⟩

theorem State.Sound.step {s t : State} (h : s.Sound) (hst : step s = .next t) : t.Sound :=
  have m := step_moves hst
  ⟨m.rx.sound h.rx, m.tx.sound h.tx, m.disp.sound h.disp⟩

/-- What is presented next is not part of the invariants. -/
theorem State.Sound.setInputs {s : State} (h : s.Sound) (is : List Input) : (s.setInputs is).Sound :=
  ⟨h.rx, h.tx, h.disp⟩

theorem State.Sound.runs {n : Nat} {s t : State} (h : s.Sound) (hrun : Runs n s t) : t.Sound :=
  runs_keeps (fun _ _ => State.Sound.step) hrun h

theorem fifo_sound_of_runs_from_reset {stages n : Nat} {ins : List Input} {t : State}
    (hrun : Runs n ((State.resetWith stages).setInputs ins) t) (F : Inst) : (t.fifo F).Sound :=
  (((State.resetWith_sound stages).setInputs ins).runs hrun).fifo F

/-- The bytes held, read from `rptr` on, are the undelivered ones (rule R140 (I4)). -/
theorem Fifo.Sound.read_undelivered {f : Fifo} (h : f.Sound) {k : Nat} (hk : k < f.occTrue) :
    memRead f.mem ((f.rptr.toNat + k) % 128) = (f.pushed.drop f.delivered.length)[k]? := by
  have hcounts := h.counts
  rw [h.occTrue_count] at hk
  have hslot : (f.rptr.toNat + k) % 128 = (f.delivered.length + k) % 128 := by
    rw [h.rptr_count, BitVec.toNat_ofNat, Nat.mod_add_mod]
  rw [hslot, List.getElem?_drop]
  exact h.held _ (by omega) (by omega)

/-- Settles O36: a reached state is sound, and (I1) to (I4) are read off that invariant. -/
theorem reachableStatesMeetR140 : Obligations.ReachableStatesMeetR140 := by
  intro stages ins n t F hrun
  have h := fifo_sound_of_runs_from_reset hrun F
  obtain ⟨writes, hwrites, hwsorted, -, -⟩ := h.wsync_sound
  obtain ⟨reads, hreads, hrsorted, -, -⟩ := h.rsync_sound
  exact ⟨h.wgray_image, h.rgray_image, ⟨writes, hwrites, h.wgray_eq, hwsorted⟩, ⟨reads, hreads, h.rgray_eq, hrsorted⟩,
    h.occR_le_occTrue, h.occTrue_le_occW, h.occW_le_capacity, h.occTrue_count, fun _ => h.read_undelivered, h.canonical⟩

/-- Settles O37: the order is part of the invariant of every reached state. -/
theorem deliveredIsTheBeginningOfPushed : Obligations.DeliveredIsTheBeginningOfPushed :=
  fun _ _ _ _ F hrun => (fifo_sound_of_runs_from_reset hrun F).order

end Sys2Proof.Machine
end

section
/-! A synchroniser over several idle edges of its domain (rule R142). Only the first edge can sample a fresh source, so
after one edge more than it has stages it holds nothing but the source's value; and before as many edges as it has stages
its last one still holds a value from before. -/

namespace Sys2Proof.Machine

/-- The stages after edges of their domain with these draws, while the source holds `cur`. -/
def shiftsIn (cur prev : Cursor) : Bool → List Draw → List Cursor → List Cursor
  | _, [], stages => stages
  | fresh, d :: ds, stages => shiftsIn cur prev false ds (shiftIn stages (sample fresh cur prev d))

section
variable {cur prev : Cursor} {fresh : Bool} {ds : List Draw} {stages : List Cursor}

@[simp] theorem shiftsIn_length : (shiftsIn cur prev fresh ds stages).length = stages.length := by
  induction ds generalizing fresh stages with
  | nil => rfl
  | cons d ds ih => rw [shiftsIn, ih, shiftIn_length]

/-- What was in the synchroniser moves on by one stage an edge. -/
theorem shiftsIn_getElem?_of_le {k : Nat} (hn : ds.length ≤ k) (hk : k < stages.length) :
    (shiftsIn cur prev fresh ds stages)[k]? = stages[k - ds.length]? := by
  induction ds generalizing fresh stages with
  | nil => rfl
  | cons d ds ih =>
    rw [List.length_cons] at hn ⊢
    have hstage : k - ds.length = k - (ds.length + 1) + 1 := by omega
    rw [shiftsIn, ih (by omega) (by rwa [shiftIn_length]), hstage, shiftIn_succ _ (by omega)]

/-- With a source that is not fresh every edge brings its value. -/
theorem shiftsIn_getElem?_of_lt {k : Nat} (hn : k < ds.length) (hk : k < stages.length) :
    (shiftsIn cur prev false ds stages)[k]? = some cur := by
  induction ds generalizing stages with
  | nil => simp at hn
  | cons d ds ih =>
    rw [shiftsIn]
    have hk' : k < (shiftIn stages (sample false cur prev d)).length := by rwa [shiftIn_length]
    rcases Nat.lt_or_ge k ds.length with hlt | hge
    · exact ih hlt hk'
    · rw [List.length_cons] at hn
      have hlast : k - ds.length = 0 := by omega
      rw [shiftsIn_getElem?_of_le hge hk', hlast, shiftIn_zero _ (List.ne_nil_of_length_pos (by omega))]
      rfl

/-- After more edges than there are stages only the source's value is left. -/
theorem eq_of_mem_shiftsIn (hn : stages.length < ds.length) {g : Cursor}
    (hg : g ∈ shiftsIn cur prev fresh ds stages) : g = cur := by
  cases ds with
  | nil => simp at hn
  | cons d ds =>
    obtain ⟨k, hk⟩ := List.mem_iff_getElem?.1 hg
    rw [List.length_cons] at hn
    have hlt : k < stages.length := by
      simpa using (List.getElem?_eq_some_iff.1 hk).1
    rw [shiftsIn, shiftsIn_getElem?_of_lt (by omega) (by rwa [shiftIn_length])] at hk
    exact (Option.some.inj hk).symm

/-- With fewer edges than stages the last stage shows what was that many stages before it. -/
theorem getLastD_shiftsIn (hn : ds.length < stages.length) (x : Cursor) :
    stages[stages.length - 1 - ds.length]? = some ((shiftsIn cur prev fresh ds stages).getLastD x) := by
  have hlast := shiftsIn_getElem?_of_le (cur := cur) (prev := prev) (fresh := fresh) (stages := stages) (ds := ds)
    (k := stages.length - 1) (by omega) (by omega)
  have hne : shiftsIn cur prev fresh ds stages ≠ [] :=
    List.ne_nil_of_length_pos (by rw [shiftsIn_length]; omega)
  rw [← hlast, List.getLastD_eq_getLast?, List.getLast?_eq_some_getLast hne, Option.getD_some,
    ← List.getLast?_eq_some_getLast hne, List.getLast?_eq_getElem?, shiftsIn_length]

end

/-! Idle edges of one FIFO. -/

/-- The FIFO after a `REDGE` for each draw, without a POP. -/
def Fifo.readIdles (f : Fifo) (ds : List Draw) : Fifo := ds.foldl (fun g d => g.bookR d g) f

/-- The FIFO after a `WEDGE` for each draw, without a PUSH. -/
def Fifo.writeIdles (f : Fifo) (ds : List Draw) : Fifo := ds.foldl (fun g d => g.bookW d g) f

theorem Fifo.readIdles_cons (f : Fifo) (d : Draw) (ds : List Draw) :
    f.readIdles (d :: ds) = (f.bookR d f).readIdles ds := rfl

theorem Fifo.writeIdles_cons (f : Fifo) (d : Draw) (ds : List Draw) :
    f.writeIdles (d :: ds) = (f.bookW d f).writeIdles ds := rfl

theorem Fifo.readIdles_wsync (f : Fifo) (ds : List Draw) :
    (f.readIdles ds).wsync = shiftsIn f.wgray f.wgrayPrev f.wFresh ds f.wsync := by
  induction ds generalizing f with
  | nil => rfl
  | cons d ds ih => rw [Fifo.readIdles_cons, ih]; rfl

theorem Fifo.writeIdles_rsync (f : Fifo) (ds : List Draw) :
    (f.writeIdles ds).rsync = shiftsIn f.rgray f.rgrayPrev f.rFresh ds f.rsync := by
  induction ds generalizing f with
  | nil => rfl
  | cons d ds ih => rw [Fifo.writeIdles_cons, ih]; rfl

/-- Idle read edges keep storage, both cursors and the other synchroniser. -/
theorem Fifo.readIdles_keeps (f : Fifo) (ds : List Draw) :
    f.SameWriteSide (f.readIdles ds) ∧ (f.readIdles ds).rptr = f.rptr ∧ (f.readIdles ds).rgray = f.rgray := by
  induction ds generalizing f with
  | nil => exact ⟨⟨rfl, rfl, rfl, rfl, rfl, rfl, rfl⟩, rfl, rfl⟩
  | cons d ds ih => exact ih (f.bookR d f)

/-- Idle write edges keep storage, both cursors and the other synchroniser. -/
theorem Fifo.writeIdles_keeps (f : Fifo) (ds : List Draw) :
    f.SameReadSide (f.writeIdles ds) ∧ (f.writeIdles ds).mem = f.mem ∧ (f.writeIdles ds).wptr = f.wptr ∧
      (f.writeIdles ds).wgray = f.wgray := by
  induction ds generalizing f with
  | nil => exact ⟨⟨rfl, rfl, rfl, rfl, rfl, rfl, rfl⟩, rfl, rfl, rfl⟩
  | cons d ds ih => exact ih (f.bookW d f)

/-! Runs of one idle command. -/

/-- A run is its first line and the run over the lines after it. -/
theorem runs_line_then {l : Line} {ls : List Line} {n : Nat} {s u t : State}
    (h2 : secondDriver (decode l.word) s = none)
    (h : exec (decode l.word) ((s.withLines ls).setLineDraw l.draw) = .next u)
    (hin : u.inputs = ((s.withLines ls).setLineDraw l.draw).inputs) (hu : Runs n (u.withLines ls) t) :
    Runs (n + 1) (s.withLines (l :: ls)) t :=
  runs_line h2 h (by rwa [State.withLines_of_inputs hin] at hu)

/-- A command that is never a second driver and always takes `F` on by `edge`, outside reset. -/
structure AlwaysRuns (i : Instr) (F : Inst) (edge : Fifo → Draw → Fifo) : Prop where
  decoded : decode (encode i) = i
  alone : ∀ s, secondDriver i s = none
  runs : ∀ s, s.rst = false →
    ∃ t, exec i s = .next t ∧ t.fifo F = edge (s.fifo F) s.draw ∧ t.rst = false ∧ t.inputs = s.inputs

theorem rnop_alwaysRuns (F : Inst) : AlwaysRuns (.rnop F) F fun f d => f.bookR d f :=
  ⟨rfl, fun _ => rfl, fun _ hr => ⟨_, execRnop_running hr, by simp, by simp [hr], by simp⟩⟩

theorem wnop_alwaysRuns (F : Inst) : AlwaysRuns (.wnop F) F fun f d => f.bookW d f :=
  ⟨rfl, fun _ => rfl, fun _ hr => ⟨_, execWnop_running hr, by simp, by simp [hr], by simp⟩⟩

/-- Lines of such a command run one edge each; a line that writes no draw gets some draw. -/
theorem AlwaysRuns.runs_lines {i : Instr} {F : Inst} {edge : Fifo → Draw → Fifo} (hi : AlwaysRuns i F edge)
    (ds : List (Option Draw)) (more : List Line) {s : State} (hr : s.rst = false) :
    ∃ (t : State) (es : List Draw), es.length = ds.length ∧
      Runs ds.length (s.withLines (ds.map (lineOf i) ++ more)) (t.withLines more) ∧
      t.fifo F = es.foldl edge (s.fifo F) ∧ t.rst = false := by
  induction ds generalizing s with
  | nil => exact ⟨s, [], rfl, runs_zero.2 rfl, rfl, hr⟩
  | cons d ds ih =>
    have hdec : decode (lineOf i d).word = i := hi.decoded
    let pre := (s.withLines (ds.map (lineOf i) ++ more)).setLineDraw d
    obtain ⟨u, hu, hfifo, hur, hin⟩ := hi.runs pre hr
    obtain ⟨t, es, hlen, hrun, ht, htr⟩ := ih hur
    refine ⟨t, pre.draw :: es, by rw [List.length_cons, List.length_cons, hlen], ?_, ?_, htr⟩
    · exact runs_line_then (by rw [hdec, hi.alone]) (by rw [hdec]; exact hu) hin hrun
    · rw [ht, hfifo, List.foldl_cons, State.setLineDraw_fifo, State.withLines_fifo]

/-- RNOPs of `F`, one for each draw, with other lines after them. -/
theorem runs_rnops (F : Inst) (ds : List (Option Draw)) (more : List Line) {s : State} (hr : s.rst = false) :
    ∃ (t : State) (es : List Draw), es.length = ds.length ∧
      Runs ds.length (s.withLines (ds.map (lineOf (.rnop F)) ++ more)) (t.withLines more) ∧
      t.fifo F = (s.fifo F).readIdles es ∧ t.rst = false :=
  (rnop_alwaysRuns F).runs_lines ds more hr

/-- WNOPs of `F`, one for each draw, with other lines after them. -/
theorem runs_wnops (F : Inst) (ds : List (Option Draw)) (more : List Line) {s : State} (hr : s.rst = false) :
    ∃ (t : State) (es : List Draw), es.length = ds.length ∧
      Runs ds.length (s.withLines (ds.map (lineOf (.wnop F)) ++ more)) (t.withLines more) ∧
      t.fifo F = (s.fifo F).writeIdles es ∧ t.rst = false :=
  (wnop_alwaysRuns F).runs_lines ds more hr

/-- Settles O42: S + 1 edges are more than there are stages. -/
theorem settledAfterEnoughEdges : Obligations.SettledAfterEnoughEdges := by
  refine fun F s ds hr => ⟨fun hn => ?_, fun hn => ?_⟩
  · obtain ⟨t, es, hlen, hrun, ht, -⟩ := runs_rnops F ds [] hr
    obtain ⟨⟨-, -, hgray, -⟩, -⟩ := (s.fifo F).readIdles_keeps es
    rw [List.append_nil] at hrun
    refine ⟨_, hrun, ?_⟩
    rw [State.withLines_fifo, ht, Fifo.readIdles_wsync]
    exact ⟨shiftsIn_length, fun g => eq_of_mem_shiftsIn (by omega), hgray⟩
  · obtain ⟨t, es, hlen, hrun, ht, -⟩ := runs_wnops F ds [] hr
    obtain ⟨⟨-, hgray, -⟩, -⟩ := (s.fifo F).writeIdles_keeps es
    rw [List.append_nil] at hrun
    refine ⟨_, hrun, ?_⟩
    rw [State.withLines_fifo, ht, Fifo.writeIdles_rsync]
    exact ⟨shiftsIn_length, fun g => eq_of_mem_shiftsIn (by omega), hgray⟩

/-- Settles O43: after n edges the last stage holds what was n stages before it. -/
theorem nothingSeenBeforeSEdges : Obligations.NothingSeenBeforeSEdges := by
  refine fun F s ds hr => ⟨fun hn => ?_, fun hn => ?_⟩
  · obtain ⟨t, es, hlen, hrun, ht, -⟩ := runs_rnops F ds [] hr
    rw [List.append_nil] at hrun
    refine ⟨_, hrun, ?_⟩
    rw [State.withLines_fifo, ht, Fifo.wseen, Fifo.readIdles_wsync, ← hlen]
    exact getLastD_shiftsIn (by omega) _
  · obtain ⟨t, es, hlen, hrun, ht, -⟩ := runs_wnops F ds [] hr
    rw [List.append_nil] at hrun
    refine ⟨_, hrun, ?_⟩
    rw [State.withLines_fifo, ht, Fifo.rseen, Fifo.writeIdles_rsync, ← hlen]
    exact getLastD_shiftsIn (by omega) _

/-- `SETTLE` (rule R104) at one FIFO: the read edges fill `wsync`, the write edges then fill `rsync`, and neither
touches the source of the other. -/
theorem Fifo.readIdles_writeIdles (f : Fifo) {es es' : List Draw} (hes : f.wsync.length < es.length)
    (hes' : f.rsync.length < es'.length) {t : Fifo} (ht : t = (f.readIdles es).writeIdles es') :
    (∀ g ∈ t.wsync, g = t.wgray) ∧ (∀ g ∈ t.rsync, g = t.rgray) ∧
      t.wptr = f.wptr ∧ t.rptr = f.rptr ∧ t.mem = f.mem := by
  obtain ⟨⟨hmem, hwptr, hwgray, hrsync, -⟩, hrptr, hrgray⟩ := f.readIdles_keeps es
  obtain ⟨⟨hrptr', hrgray', hwsync', -⟩, hmem', hwptr', hwgray'⟩ := (f.readIdles es).writeIdles_keeps es'
  subst ht
  refine ⟨?_, ?_, hwptr'.trans hwptr, hrptr'.trans hrptr, hmem'.trans hmem⟩
  · rw [hwsync', hwgray', hwgray, Fifo.readIdles_wsync]
    exact fun g => eq_of_mem_shiftsIn hes
  · rw [hrgray', hrgray, Fifo.writeIdles_rsync, hrsync, hrgray]
    exact fun g => eq_of_mem_shiftsIn hes'

/-- `SETTLE` (rule R104) as a run: its RNOPs, then its WNOPs. -/
theorem runs_settle (F : Inst) (n : Nat) {s : State} (hr : s.rst = false) :
    ∃ (t : State) (es es' : List Draw), es.length = n + 1 ∧ es'.length = n + 1 ∧
      Runs (2 * (n + 1)) (s.withLines (assemble n (.settle F))) t ∧
      t.fifo F = ((s.fifo F).readIdles es).writeIdles es' := by
  let ds : List (Option Draw) := List.replicate (n + 1) none
  have hds : ds.length = n + 1 := List.length_replicate
  obtain ⟨u, es, hes, hread, hu, hur⟩ := runs_rnops F ds (ds.map (lineOf (.wnop F))) hr
  obtain ⟨t, es', hes', hwrite, ht, -⟩ := runs_wnops F ds [] hur
  rw [List.append_nil] at hwrite
  have hlines : assemble n (.settle F) = ds.map (lineOf (.rnop F)) ++ ds.map (lineOf (.wnop F)) := by
    rw [List.map_replicate, List.map_replicate, assemble]
  refine ⟨t.withLines [], es, es', hes.trans hds, hes'.trans hds, ?_, by rw [State.withLines_fifo, ht, hu]⟩
  rw [hlines, Nat.two_mul, ← hds]
  exact runs_add hread hwrite

/-- Settles O41: settled stages make the seen occupancies true, SETTLE settles the stages, and the seen occupancies
always decide the flags. -/
theorem flagsExactWhenSettled : Obligations.FlagsExactWhenSettled := by
  refine ⟨fun f h hw hr => ⟨h.full_iff_occTrue hr, h.empty_iff_occTrue hw⟩, fun F s hr h => ?_,
    fun f h => ⟨h.full_iff_occW.1, h.empty_iff_occR.1⟩⟩
  obtain ⟨t, es, es', hes, hes', hrun, ht⟩ := runs_settle F (s.fifo F).wsync.length hr
  have hS := h.stages
  exact ⟨t, hrun, (s.fifo F).readIdles_writeIdles (by omega) (by omega) ht⟩

end Sys2Proof.Machine
end

section
/-! PUSHes one after another with no POP between (rule R144). -/

namespace Sys2Proof.Machine

@[simp] theorem State.withLines_drives (s : State) (ls : List Line) (p : Port) :
    (s.withLines ls).drives p = s.drives p := State.setInputs_drives _ p

/-- A write edge opens no clear window. -/
theorem Fifo.bookW_inClearWindow {f post : Fifo} (d : Draw) (hclr : post.clr = f.clr) (hhold : post.rHold = f.rHold)
    (h : f.inClearWindow = false) : (f.bookW d post).inClearWindow = false := by
  simp only [Fifo.inClearWindow, Bool.or_eq_false_iff, decide_eq_false_iff_not, not_not] at h ⊢
  obtain ⟨⟨hc, hw⟩, hr⟩ := h
  simp [hclr, hhold, hc, hw, hr]

/-- A line can PUSH into `F`, and domain W sees how many bytes it holds. -/
structure PushReady (F : Inst) (s : State) : Prop where
  running : s.rst = false
  window : (s.fifo F).inClearWindow = false
  undriven : s.drives (.w F) = false
  sound : (s.fifo F).Sound
  seen : (s.fifo F).ReadCursorSeen

namespace PushReady

variable {F : Inst} {s : State} (h : PushReady F s)
include h

/-- Nothing else of the state counts. -/
theorem of_same {t : State} (hrst : t.rst = s.rst) (hfifo : t.fifo F = s.fifo F)
    (hdrives : t.drives (.w F) = s.drives (.w F)) : PushReady F t :=
  ⟨hrst ▸ h.running, hfifo ▸ h.window, hdrives ▸ h.undriven, hfifo ▸ h.sound, hfifo ▸ h.seen⟩

theorem line (ls : List Line) (d : Option Draw) : PushReady F ((s.withLines ls).setLineDraw d) :=
  h.of_same rfl (by simp) (by simp)

/-- Both outcomes of a PUSH are a write edge that leaves the read side. -/
theorem edgeW {post : Fifo} (hclr : post.clr = (s.fifo F).clr) (hhold : post.rHold = (s.fifo F).rHold)
    (hgray : post.rgray = (s.fifo F).rgray) (hsound : ((s.fifo F).bookW s.draw post).Sound) :
    PushReady F (s.edgeW F post) := by
  refine ⟨by simp [h.running], ?_, by simp [h.undriven], ?_, ?_⟩ <;> rw [State.edgeW_fifo_same]
  · exact Fifo.bookW_inClearWindow _ hclr hhold h.window
  · exact hsound
  · exact h.seen.bookW hgray _

theorem record (e : Ghost) : PushReady F (s.record e) := h.of_same rfl (by simp) (by simp)

/-- With room the byte goes in and one more is held. -/
theorem push_room (b : Byte) (hocc : (s.fifo F).occTrue < 127) :
    ∃ t, exec (.push F b) s = .next t ∧ t.inputs = s.inputs ∧ PushReady F t ∧
      (t.fifo F).occTrue = (s.fifo F).occTrue + 1 ∧ (t.fifo F).pushed = (s.fifo F).pushed ++ [b] ∧
      t.history = s.history := by
  have hf : (s.fifo F).full = false := by
    rw [← Bool.not_eq_true, h.sound.full_iff_occTrue h.seen.stages]
    omega
  refine ⟨_, execPush_room h.running h.window hf, by simp,
    h.edgeW rfl rfl rfl (h.sound.bookW_store _ b hf), ?_, by simp, by simp⟩
  rw [State.edgeW_fifo_same, h.sound.occTrue_bookW_store _ b hf]

/-- With 127 bytes held the byte is dropped with its event. -/
theorem push_full (b : Byte) (hocc : (s.fifo F).occTrue = 127) :
    ∃ t, exec (.push F b) s = .next t ∧ t.inputs = s.inputs ∧ PushReady F t ∧
      (t.fifo F).occTrue = 127 ∧ (t.fifo F).pushed = (s.fifo F).pushed ∧
      t.history = s.history ++ [.overflow F b] := by
  refine ⟨_, execPush_full h.running h.window (h.sound.full_of_occTrue hocc), by simp,
    (h.edgeW rfl rfl rfl (h.sound.bookW_self _)).record _, ?_, by simp, by simp⟩
  rw [State.record_fifo, State.edgeW_fifo_same]
  exact hocc

/-- As many bytes as there is room for go in, and each later one is dropped. -/
theorem runs_pushes (bs : List (Byte × Option Draw)) :
    ∃ t, Runs bs.length (s.withLines (bs.map fun p => lineOf (.push F p.1) p.2)) t ∧
      (t.fifo F).pushed = (s.fifo F).pushed ++ (bs.take (127 - (s.fifo F).occTrue)).map Prod.fst ∧
      t.history = s.history ++ (bs.drop (127 - (s.fifo F).occTrue)).map fun p => .overflow F p.1 := by
  induction bs generalizing s with
  | nil => exact ⟨_, runs_zero.2 rfl, by simp, by simp⟩
  | cons p bs ih =>
    obtain ⟨hpush, -⟩ := wordsDecodeAsTheTableSays F
    have hdec : decode (lineOf (.push F p.1) p.2).word = .push F p.1 := hpush p.1
    have halone : secondDriver (.push F p.1) s = none := by simp [secondDriver, h.undriven]
    have hpre := h.line (bs.map fun p => lineOf (.push F p.1) p.2) p.2
    have hcap : (s.fifo F).occTrue ≤ 127 := h.sound.occTrue_le_occW.trans h.sound.occW_le_capacity
    rcases hcap.lt_or_eq with hlt | heq
    · obtain ⟨u, hu, hin, hready, hocc, hpushed, hhist⟩ := hpre.push_room p.1 (by simpa using hlt)
      obtain ⟨t, hrun, ht, hthist⟩ := ih hready
      have hroom : 127 - (s.fifo F).occTrue = 127 - (u.fifo F).occTrue + 1 := by
        simp only [State.setLineDraw_fifo, State.withLines_fifo] at hocc
        omega
      refine ⟨t, runs_line_then (by rw [hdec, halone]) (by rw [hdec]; exact hu) hin hrun, ?_, ?_⟩
      · rw [ht, hpushed, hroom]
        simp
      · rw [hthist, hhist, hroom]
        simp
    · obtain ⟨u, hu, hin, hready, hocc, hpushed, hhist⟩ := hpre.push_full p.1 (by simpa using heq)
      obtain ⟨t, hrun, ht, hthist⟩ := ih hready
      refine ⟨t, runs_line_then (by rw [hdec, halone]) (by rw [hdec]; exact hu) hin hrun, ?_, ?_⟩
      · rw [ht, hpushed, hocc, heq]
        simp
      · rw [hthist, hhist, hocc, heq]
        simp

end PushReady

/-- Settles O45: an empty settled buffer has room for 127 bytes. -/
theorem overflowKeepsTheOldest : Obligations.OverflowKeepsTheOldest := by
  intro F s bs hr hw hd hsound hsettled hocc
  obtain ⟨-, hstages, -, hfresh⟩ := hsettled
  have := (PushReady.mk hr hw hd hsound ⟨hstages, hfresh⟩).runs_pushes bs
  rwa [hocc] at this

end Sys2Proof.Machine
end

section
/-! The commands of the display port outside reset, register by register (rules R171 to R175). -/

namespace Sys2Proof.Machine

/-- The wrap of the column after 7 (rule R171). -/
theorem Display.tick_col_toNat (rom : Fin 11 → Fin 8 → Byte) (d : Display) :
    (d.tick rom).col.toNat = if d.col.toNat = 7 then 0 else d.col.toNat + 1 := by
  rw [Display.tick_col]
  split <;> bv_omega

/-- The restart of the mask after column 7 (rule R171). -/
theorem Display.tick_mask_wrap (rom : Fin 11 → Fin 8 → Byte) (d : Display) :
    (d.tick rom).mask = if d.col.toNat = 7 then 0x01#8 else d.mask <<< 1 := by
  have hcol : d.col.toNat = 7 ↔ d.col = 7#3 := BitVec.toNat_inj (y := 7#3)
  simp only [Display.tick, hcol]

/-- Settles O24: TICK outside reset answers with `Display.tick`, whose registers are these. -/
theorem tickRule : Obligations.TickRule := fun _ hr =>
  ⟨rfl, _, execTick_running hr, rfl, Display.tick_red _ _, Display.tick_grn _ _, Display.tick_col_toNat _ _,
    Display.tick_mask_wrap _ _, rfl, rfl⟩

/-- Settles O25: ADVANCE outside reset answers with `Display.advance`, which leaves the scan. -/
theorem advanceRule : Obligations.AdvanceRule := fun s hr =>
  ⟨rfl, _, execAdvance_running hr, s.disp.advance_glyph_val, s.disp.advance_color_val, s.disp.advance_col,
    s.disp.advance_mask, s.disp.advance_sel, s.disp.advance_red, s.disp.advance_grn⟩

/-- TICK_ADVANCE answers with the display after a TICK and an ADVANCE (rule R174). -/
theorem execTickAdvance_eq_tick_advance {s : State} (hr : s.rst = false) :
    execTickAdvance s = .next (s.setDisp (s.disp.tick Config.glyphRom).advance) := by
  rw [execTickAdvance_running hr, Display.tickAdvance_eq]

/-- Settles O26: the second part leaves what the first one drives. -/
theorem tickAdvanceRule : Obligations.TickAdvanceRule := by
  intro s hr
  refine ⟨rfl, _, execTickAdvance_eq_tick_advance hr, ?_, ?_, ?_, _, execTick_running hr, execAdvance_running hr⟩
  · rw [State.setDisp_disp, Display.advance_sel, Display.tick_sel]
  · rw [State.setDisp_disp, Display.advance_red, Display.tick_red, Display.column]
  · rw [State.setDisp_disp, Display.advance_grn, Display.tick_grn, Display.column]

/-- Settles O27: DNOP answers the state it is given. -/
theorem dnopRule : Obligations.DnopRule := fun _ => ⟨rfl, rfl⟩

end Sys2Proof.Machine
end

section
/-! Runs of one command of the display port: the column scan (rule R177) and the cursor's cycle (rule R178). -/

namespace Sys2Proof.Machine

/-! A command's effect on the display, iterated. -/

/-- A command that outside reset takes the display on by `f`. -/
structure MovesDisplay (i : Instr) (f : Display → Display) : Prop where
  decoded : decode (encode i) = i
  runs : ∀ s : State, s.rst = false → exec i s = .next (s.setDisp (f s.disp))

theorem tick_movesDisplay : MovesDisplay .tick (Display.tick Config.glyphRom) :=
  ⟨rfl, fun _ => execTick_running⟩

theorem advance_movesDisplay : MovesDisplay .advance Display.advance := ⟨rfl, fun _ => execAdvance_running⟩

/-- Whether a command is a second driver depends on the ports the agents drive alone. -/
theorem secondDriver_of_drives {s t : State} (h : ∀ p, t.drives p = s.drives p) (i : Instr) :
    secondDriver i t = secondDriver i s := by
  cases i <;> simp [secondDriver, h]

/-- `n` lines of such a command take the display on `n` times. -/
theorem MovesDisplay.runs_lines {i : Instr} {f : Display → Display} (hi : MovesDisplay i f) (n : Nat) {s : State}
    (hr : s.rst = false) (halone : secondDriver i s = none) :
    ∃ t, Runs n (s.withLines (List.replicate n (lineOf i none))) t ∧ t.disp = f^[n] s.disp := by
  induction n generalizing s with
  | zero => exact ⟨_, runs_zero.2 rfl, rfl⟩
  | succ n ih =>
    have hdec : decode (lineOf i none).word = i := hi.decoded
    let pre := (s.withLines (List.replicate n (lineOf i none))).setLineDraw none
    let u := pre.setDisp (f s.disp)
    have hstep : exec i pre = .next u := hi.runs pre hr
    have hdrives : ∀ p, u.drives p = s.drives p := by simp [u, pre]
    obtain ⟨t, hrun, ht⟩ := ih (s := u) hr (by rw [secondDriver_of_drives hdrives, halone])
    exact ⟨t, runs_line_then (u := u) (by rw [hdec, halone]) (by rw [hdec]; exact hstep) rfl hrun, ht⟩

/-! The column scan. -/

section
variable (rom : Fin 11 → Fin 8 → Byte) (d : Display) (n : Nat)

theorem Display.iterate_tick_glyph : ((Display.tick rom)^[n] d).glyph = d.glyph :=
  Function.Iterate.rec (fun e : Display => e.glyph = d.glyph) rfl
    (fun e h => (Display.tick_glyph rom e).trans h) n

theorem Display.iterate_tick_color : ((Display.tick rom)^[n] d).color = d.color :=
  Function.Iterate.rec (fun e : Display => e.color = d.color) rfl
    (fun e h => (Display.tick_color rom e).trans h) n

theorem Display.iterate_tick_col : ((Display.tick rom)^[n] d).col.toNat = (d.col.toNat + n) % 8 := by
  induction n with
  | zero => exact (Nat.mod_eq_of_lt d.col.isLt).symm
  | succ n ih =>
    rw [Function.iterate_succ_apply', Display.tick_col_toNat, ih]
    split <;> omega

theorem Display.iterate_tick_column : ((Display.tick rom)^[n] d).column = Fin.ofNat 8 (d.col.toNat + n) :=
  Fin.ext (Display.iterate_tick_col rom d n)

end

theorem Display.Sound.iterate_tick (rom : Fin 11 → Fin 8 → Byte) {d : Display} (h : d.Sound) (n : Nat) :
    ((Display.tick rom)^[n] d).Sound :=
  Function.Iterate.rec Display.Sound h (fun _ hd => hd.tick rom) n

/-- Settles O29: the (n+1)-th TICK draws the column that n TICKs have brought the scan to. -/
theorem columnScanCycle : Obligations.ColumnScanCycle := by
  intro s n hr h
  obtain ⟨t, hrun, ht⟩ := tick_movesDisplay.runs_lines (n + 1) hr rfl
  have hlast := h.iterate_tick Config.glyphRom n
  refine ⟨t, hrun, ?_, ⟨?_, ?_⟩, ?_, ?_, ?_, ?_⟩ <;> rw [ht]
  · rw [Function.iterate_succ_apply', Display.tick_sel, hlast.mask_col, Display.iterate_tick_col]
  · rw [Function.iterate_succ_apply', Display.tick_red, Display.iterate_tick_color, Display.iterate_tick_glyph,
      Display.iterate_tick_column]
  · rw [Function.iterate_succ_apply', Display.tick_grn, Display.iterate_tick_color, Display.iterate_tick_glyph,
      Display.iterate_tick_column]
  · exact Display.iterate_tick_col ..
  · exact (h.iterate_tick _ _).mask_col
  · exact Display.iterate_tick_glyph ..
  · exact Display.iterate_tick_color ..

/-! The cursor's cycle. -/

/-- The place of (glyph, colour) in the order ADVANCE visits the 33 of them (rule R178). -/
def Display.cursorPlace (d : Display) : Nat := d.glyph.val + 11 * d.color.val

theorem Display.cursorPlace_advance (d : Display) : d.advance.cursorPlace = (d.cursorPlace + 1) % 33 := by
  have hglyph := d.glyph.isLt
  have hcolor := d.color.isLt
  simp only [Display.cursorPlace, Display.advance_glyph_val, Display.advance_color_val]
  split <;> omega

theorem Display.cursorPlace_iterate_advance (d : Display) (n : Nat) :
    (Display.advance^[n] d).cursorPlace = (d.cursorPlace + n) % 33 := by
  induction n with
  | zero =>
    have hglyph := d.glyph.isLt
    have hcolor := d.color.isLt
    simp only [Function.iterate_zero, id_eq, Display.cursorPlace]
    omega
  | succ n ih =>
    rw [Function.iterate_succ_apply', Display.cursorPlace_advance, ih, Nat.mod_add_mod, Nat.add_assoc]

/-- Settles O30: the place counts the ADVANCEs modulo 33, and glyph and colour are its remainder and quotient by 11. -/
theorem displayCursorCycle : Obligations.DisplayCursorCycle := by
  intro s n hr hd hg hc
  obtain ⟨t, hrun, ht⟩ := advance_movesDisplay.runs_lines n hr (by simp [secondDriver, hd])
  have hplace : t.disp.cursorPlace = n % 33 := by
    rw [ht, Display.cursorPlace_iterate_advance]
    simp [Display.cursorPlace, hg, hc]
  have hglyph := t.disp.glyph.isLt
  rw [Display.cursorPlace] at hplace
  refine ⟨t, hrun, by omega, by omega, ?_⟩
  rw [← Fin.val_inj, ← Fin.val_inj, Fin.val_zero, Fin.val_zero]
  omega

end Sys2Proof.Machine
end

section
/-! One step of an agent that runs a sequence (rules R201, R212): what lets it step, and what is left then. -/

namespace Sys2Proof.Machine

/-! Both instances after an edge of one of them. -/

section
variable (s : State) (f : Fifo)

@[simp] theorem State.edgeW_tx_tx : (s.edgeW .tx f).tx = s.tx.bookW s.draw f := rfl
@[simp] theorem State.edgeW_tx_rx : (s.edgeW .tx f).rx = s.rx := rfl
@[simp] theorem State.edgeW_rx_rx : (s.edgeW .rx f).rx = s.rx.bookW s.draw f := rfl
@[simp] theorem State.edgeW_rx_tx : (s.edgeW .rx f).tx = s.tx := rfl
@[simp] theorem State.edgeR_tx_tx : (s.edgeR .tx f).tx = s.tx.bookR s.draw f := rfl
@[simp] theorem State.edgeR_tx_rx : (s.edgeR .tx f).rx = s.rx := rfl
@[simp] theorem State.edgeR_rx_rx : (s.edgeR .rx f).rx = s.rx.bookR s.draw f := rfl
@[simp] theorem State.edgeR_rx_tx : (s.edgeR .rx f).tx = s.tx := rfl

end

section
variable {s u : State} {a : Agent} {d : Option Draw} {rest : List Input} {k : Task} {ts more : List Task}

theorem step_run (hin : s.inputs = .run a d :: rest) :
    step s = agentStep a ((s.setInputs rest).setLineDraw d) := by simp [step, hin]

theorem step_call {c : Call} (hin : s.inputs = .call c :: rest) (hready : s.uart.ready = true) :
    step s = .next ((s.setInputs rest).setTasks .main (s.main ++ callTasks Config.kickPolicy c)) := by
  simp [step, hin, State.start, hready]

theorem step_irq_err (hin : s.inputs = .irq .err :: rest) (hready : s.uart.ready = true) :
    step s = .next ((s.setInputs rest).setTasks .err (s.err ++ [.lsrRead, .discardRx])) := by
  simp [step, hin, interrupt, State.start, hready]

/-- The environment lets agent `a` step on its next part `k`, and nothing stands in its way: no handler on the port of
the mainline or the kicker, and for a CLEAR of RX neither the pin nor a drain (rules R201, R275, R276). -/
structure State.Turn (s : State) (a : Agent) (d : Option Draw) (rest : List Input) (k : Task) (more : List Task) :
    Prop where
  inputs : s.inputs = .run a d :: rest
  tasks : s.tasks a = k :: more
  free : a = .main ∨ a = .kicker → k.port.any s.handlerDrives = false
  clear : k = .clearRx → s.rx.clr = false ∧ s.rda = []

theorem decide_and_eq_false_of_imp {P : Prop} [Decidable P] {b : Bool} (h : P → b = false) :
    (decide P && b) = false := by
  by_cases hP : P
  · rw [h hP, Bool.and_false]
  · rw [decide_eq_false hP, Bool.false_and]

/-- An agent in whose way nothing stands runs its next part, and what is left of that part comes before the others. -/
theorem agentStep_part (ht : s.tasks a = k :: more)
    (hfree : a = .main ∨ a = .kicker → k.port.any s.handlerDrives = false)
    (hclear : k = .clearRx → s.rx.clr = false ∧ s.rda = []) (hk : taskStep k s = .next (ts, u)) :
    agentStep a s = .next (u.setTasks a (ts ++ more)) := by
  have hpin : k = .clearRx → s.rx.clr = false := fun h => (hclear h).1
  have hdrain : k = .clearRx → (!s.rda.isEmpty) = false := fun h => by simp [(hclear h).2]
  simp only [agentStep, ht, decide_and_eq_false_of_imp hfree, decide_and_eq_false_of_imp hpin,
    decide_and_eq_false_of_imp hdrain, hk, onNext_next, Bool.false_eq_true, if_false]

/-- One step of the machine at an agent's turn. -/
theorem step_part (h : s.Turn a d rest k more) (hk : taskStep k ((s.setInputs rest).setLineDraw d) = .next (ts, u)) :
    step s = .next (u.setTasks a (ts ++ more)) := by
  rw [step_run h.inputs]
  refine agentStep_part ?_ h.free h.clear hk
  cases a <;> exact h.tasks

theorem State.tasks_setTasks_other {a' : Agent} (s : State) (ts : List Task) (h : a' ≠ a) :
    (s.setTasks a ts).tasks a' = s.tasks a' := by
  cases a <;> cases a' <;> simp at h ⊢

end

end Sys2Proof.Machine
end

section
/-! `send` and `print_line` (rules R203, R208). -/

namespace Sys2Proof.Machine

section
variable {s : State} {k : KickPolicy} {b : Byte} {bs : List Byte}

theorem taskStep_send_full (hr : s.rst = false) (hf : s.tx.full = true) :
    taskStep (.send k (b :: bs)) s = .next ([.send k (b :: bs)], s.edgeW .tx s.tx) := by
  simp [taskStep, sendStep, hf, execWnop_running hr]

theorem taskStep_send_room (hr : s.rst = false) (hw : s.tx.inClearWindow = false) (hf : s.tx.full = false) :
    taskStep (.send k (b :: bs)) s =
      .next ((if k = .afterEachByte then [.kick] else []) ++ [.send k bs], s.edgeW .tx (s.tx.store b)) := by
  have hpush : execPush .tx b s = .next (s.edgeW .tx (s.tx.store b)) := execPush_room hr hw hf
  simp [taskStep, sendStep, hf, hpush]

end

/-- Settles O49: by `full`, the pass is one WNOP or one effective PUSH. -/
theorem sendNeverDrops : Obligations.SendNeverDrops := by
  intro s rest d k b bs more hin hmain hr hw hfree
  have hturn : s.Turn .main d rest (.send k (b :: bs)) more := ⟨hin, hmain, fun _ => hfree, nofun⟩
  cases hf : s.tx.full with
  | true =>
    exact ⟨_, step_part hturn (taskStep_send_full hr hf), by simp, by simp, by simp,
      fun _ => ⟨by simp [hmain], by simp, by simp, by simp, _, execWnop_running hr, by simp⟩, nofun⟩
  | false =>
    exact ⟨_, step_part hturn (taskStep_send_room hr hw hf), by simp, by simp, by simp, nofun,
      fun _ => ⟨by simp, by simp⟩⟩

/-- The occupancy domain W sees, from the count of the read cursor it sees. -/
theorem Fifo.Sound.occW_of_rseen {f : Fifo} (h : f.Sound) {k : Nat} (hk : f.rseen = grayAt k)
    (hle : k ≤ f.pushed.length) (hroom : f.pushed.length ≤ k + 127) : f.occW = f.pushed.length - k := by
  rw [Fifo.occW, h.wptr_count, hk, ungray_grayAt, cursor_sub_toNat hle hroom]

/-- An effective PUSH adds at most one to the occupancy domain W sees: the edge shows it no older read cursor. -/
theorem Fifo.Sound.occW_bookW_store {f : Fifo} (h : f.Sound) (d : Draw) (b : Byte) (hf : f.full = false) :
    (f.bookW d (f.store b)).occW ≤ f.occW + 1 := by
  obtain ⟨k, hk, hroom, hle, hages⟩ := h.rseen_count
  obtain ⟨k', hk', hold, hle', -⟩ := ((hages k le_rfl).shift d f.rgrayPrev).seen hle
  rw [← h.rgray_eq] at hk'
  have hcounts := h.counts
  have hocc := h.occW_of_rseen hk (by omega) (by omega)
  have hne : f.occW ≠ 127 := fun heq => by simp [h.full_iff_occW.2 heq] at hf
  have hlen : (f.bookW d (f.store b)).pushed.length = f.pushed.length + 1 := by simp
  have hocc' := (h.bookW_store d b hf).occW_of_rseen hk' (by omega) (by omega)
  omega

/-- The mainline can push into TX from `send`, and TX is sound. -/
structure SendReady (s : State) : Prop where
  running : s.rst = false
  window : s.tx.inClearWindow = false
  free : s.handlerDrives (.w .tx) = false
  sound : s.tx.Sound

/-- With room as domain W sees it, a pass of `send` pushes its byte and is ready for the next. -/
theorem SendReady.step_room {s : State} (h : SendReady s) {d : Option Draw} {rest : List Input} {b : Byte}
    {bs : List Byte} {more : List Task} (hin : s.inputs = .run .main d :: rest)
    (hmain : s.main = .send .afterAllBytes (b :: bs) :: more) (hroom : s.tx.occW < 127) :
    ∃ t, step s = .next t ∧ SendReady t ∧ t.inputs = rest ∧ t.main = .send .afterAllBytes bs :: more ∧
      t.tx.pushed = s.tx.pushed ++ [b] ∧ t.history = s.history ∧ t.tx.occW ≤ s.tx.occW + 1 := by
  have hf : s.tx.full = false := by
    rw [← Bool.not_eq_true, h.sound.full_iff_occW]
    omega
  have hturn : s.Turn .main d rest (.send .afterAllBytes (b :: bs)) more := ⟨hin, hmain, fun _ => h.free, nofun⟩
  refine ⟨_, step_part hturn (taskStep_send_room h.running h.window hf), ⟨?_, ?_, ?_, ?_⟩,
    by simp, by simp, by simp, by simp, ?_⟩
  · simpa using h.running
  · simpa using Fifo.bookW_inClearWindow (f := s.tx) (post := s.tx.store b) _ rfl rfl h.window
  · exact h.free
  · simpa using h.sound.bookW_store _ b hf
  · simpa using h.sound.occW_bookW_store _ b hf

/-- Settles O50, by induction on the bytes: each pass uses up at most one byte of the room domain W sees. -/
theorem sendEnqueuesAllWhenThereIsRoom : Obligations.SendEnqueuesAllWhenThereIsRoom := by
  intro s ds bs more hin hlen hmain hr hw hfree hsound hroom
  have hready : SendReady s := ⟨hr, hw, hfree, hsound⟩
  clear hr hw hfree hsound
  induction bs generalizing s ds with
  | nil => exact ⟨s, runs_zero.2 rfl, by simp, rfl, hmain⟩
  | cons b bs ih =>
    obtain _ | ⟨d, ds⟩ := ds
    · cases hlen
    rw [List.length_cons] at hroom
    obtain ⟨u, hu, hready', hin', hmain', hpushed, hhist, hocc⟩ := hready.step_room hin hmain (by omega)
    obtain ⟨t, hrun, htpushed, hthist, htmain⟩ := ih u ds hin' (Nat.succ.inj hlen) hmain' (by omega) hready'
    exact ⟨t, runs_succ.2 ⟨u, hu, hrun⟩, by simp [htpushed, hpushed], hthist.trans hhist, htmain⟩

/-- Settles O51: the text is cut where `takeWhile` stops. -/
theorem printLineIsTwoSends : Obligations.PrintLineIsTwoSends := by
  refine fun k text => ⟨⟨_, rfl⟩, fun b hb => ?_, List.takeWhile_prefix _, ?_, by decide⟩
  · simpa using List.mem_takeWhile_imp hb
  · rintro pre post rfl hpre
    rw [lineText, List.takeWhile_append_of_pos (by simpa using hpre)]
    simp

end Sys2Proof.Machine
end

section
/-! The oldest byte of TX to the transmitter: the kick, its repetition and the pump of THRE (rules R204, R210). -/

namespace Sys2Proof.Machine

/-- The oldest undelivered byte is in the slot POP reads. -/
theorem Fifo.Sound.oldest {f : Fifo} (h : f.Sound) (he : f.empty = false) :
    ∃ b, f.pushed[f.delivered.length]? = some b ∧ memRead f.mem f.readIndex = some b := by
  obtain ⟨hlt, -⟩ := h.bytes_of_not_empty he
  exact ⟨_, List.getElem?_eq_getElem hlt, by rw [h.read_oldest hlt, List.getElem?_eq_getElem hlt]⟩

/-- The oldest undelivered byte of TX is delivered and handed to the transmitter. -/
def State.SendsOldest (s t : State) : Prop :=
  ∃ b, s.tx.pushed[s.tx.delivered.length]? = some b ∧ t.tx.delivered = s.tx.delivered ++ [b] ∧
    t.uart.txOut = s.uart.txOut ++ [b]

section
variable {s : State}

/-- With TX sound and not empty the POP for the transmitter has its byte, and no agent's sequence changes. -/
theorem popToUart_sendsOldest (hr : s.rst = false) (hw : s.tx.inClearWindow = false) (hsound : s.tx.Sound)
    (he : s.tx.empty = false) :
    ∃ t, popToUart s = .next t ∧ s.SendsOldest t ∧ t.history = s.history ∧ t.rx = s.rx ∧
      ∀ a, t.tasks a = s.tasks a := by
  obtain ⟨b, holdest, hslot⟩ := hsound.oldest he
  have hpop : execPop .tx s = .next (s.edgeR .tx (s.tx.take b)) := execPop_some hr hw he hslot
  refine ⟨(s.edgeR .tx (s.tx.take b)).setUart (s.uart.txWrite b), by simp [popToUart, hpop],
    ⟨b, holdest, by simp, rfl⟩, by simp, by simp, fun a => ?_⟩
  cases a <;> rfl

/-- One step of the machine at the turn of an agent whose part is such a POP. -/
theorem step_part_sendsOldest {a : Agent} {d : Option Draw} {rest : List Input} {k : Task} {ts more : List Task}
    (hturn : s.Turn a d rest k more) (hr : s.rst = false) (hw : s.tx.inClearWindow = false) (hsound : s.tx.Sound)
    (he : s.tx.empty = false)
    (hk : taskStep k ((s.setInputs rest).setLineDraw d) =
      onNext (popToUart ((s.setInputs rest).setLineDraw d)) fun t => .next (ts, t)) :
    ∃ t, step s = .next t ∧ s.SendsOldest t ∧ t.history = s.history ∧ t.rx = s.rx ∧ t.tasks a = ts ++ more ∧
      ∀ a', a' ≠ a → t.tasks a' = s.tasks a' := by
  obtain ⟨t, hpop, ⟨b, holdest, hdelivered, hout⟩, hhist, hrx, htasks⟩ :=
    popToUart_sendsOldest (s := (s.setInputs rest).setLineDraw d) hr hw hsound he
  rw [hpop, onNext_next] at hk
  refine ⟨_, step_part hturn hk, ⟨b, holdest, by simpa using hdelivered, by simpa using hout⟩,
    by simpa using hhist, by simpa using hrx, by simp, fun a' ha => ?_⟩
  rw [State.tasks_setTasks_other _ _ ha, htasks]
  cases a' <;> rfl

/-! The two answers of the kick and of its repetition. -/

theorem kick_ready_or_not (s : State) :
    s.uart.txIdle = true ∧ s.tx.empty = false ∨ s.uart.txIdle = false ∨ s.tx.empty = true := by
  cases s.uart.txIdle <;> cases s.tx.empty <;> simp

theorem taskStep_kick_ready (hi : s.uart.txIdle = true) (he : s.tx.empty = false) :
    taskStep .kick s = onNext (popToUart s) fun t => .next ([], t) := by simp [taskStep, kickStep, hi, he]

theorem taskStep_kick_missed (h : s.uart.txIdle = false ∨ s.tx.empty = true) :
    taskStep .kick s = .next ([], kickMissed s) := by rcases h with h | h <;> simp [taskStep, kickStep, h]

theorem taskStep_rekick_ready (hi : s.uart.txIdle = true) (he : s.tx.empty = false) :
    taskStep .rekick s = onNext (popToUart s) fun t => .next ([], t) := by simp [taskStep, rekickStep, hi, he]

theorem taskStep_rekick_missed (hr : s.rst = false) (h : s.uart.txIdle = false ∨ s.tx.empty = true) :
    taskStep .rekick s = .next ([.rekick], s.edgeR .tx s.tx) := by
  rcases h with h | h <;> simp [taskStep, rekickStep, h, execRnop_running hr]

end

/-- Settles O52: by whether the kick can send. -/
theorem kickSendsOneByte : Obligations.KickSendsOneByte := by
  intro s rest d more hin hmain hr hw hfree hsound
  have hturn : s.Turn .main d rest .kick more := ⟨hin, hmain, fun _ => hfree, nofun⟩
  rcases kick_ready_or_not s with ⟨hidle, he⟩ | hmiss
  · obtain ⟨t, ht, hsends, hhist, hrx, hmore, hothers⟩ := step_part_sendsOldest hturn hr hw hsound he
      (taskStep_kick_ready hidle he)
    exact ⟨t, ht, hmore, hhist, hrx, fun _ _ => ⟨hothers .kicker nofun, hsends⟩, by simp [hidle, he]⟩
  · exact ⟨_, step_part hturn (taskStep_kick_missed hmiss), by simp, by simp, by simp,
      fun hidle he => by simp [hidle, he] at hmiss, fun _ => ⟨by simp, by simp, kickMissed_kicker _⟩⟩

/-- Settles O59: by whether the repetition can send. -/
theorem repeatedKickWaitsForTheByte : Obligations.RepeatedKickWaitsForTheByte := by
  intro s rest d more hin hkicker hr hw hfree hsound
  have hturn : s.Turn .kicker d rest .rekick more := ⟨hin, hkicker, fun _ => hfree, nofun⟩
  rcases kick_ready_or_not s with ⟨hidle, he⟩ | hmiss
  · obtain ⟨t, ht, hsends, hhist, hrx, hmore, hothers⟩ := step_part_sendsOldest hturn hr hw hsound he
      (taskStep_rekick_ready hidle he)
    exact ⟨t, ht, hhist, hrx, hothers .main nofun, fun _ _ => ⟨hmore, hsends⟩, by simp [hidle, he]⟩
  · exact ⟨_, step_part hturn (taskStep_rekick_missed hr hmiss), by simp, by simp, by simp,
      fun hidle he => by simp [hidle, he] at hmiss,
      fun _ => ⟨by simp [hkicker], by simp, _, execRnop_running hr, by simp⟩⟩

/-- Settles O53: by `empty`. -/
theorem pumpLoadsUntilEmpty : Obligations.PumpLoadsUntilEmpty := by
  intro s rest d more hin hthre hr hw hsound
  have hturn : s.Turn .thre d rest .pump more := ⟨hin, hthre, by simp, nofun⟩
  cases he : s.tx.empty with
  | false =>
    obtain ⟨t, ht, hsends, hhist, hrx, hmore, -⟩ := step_part_sendsOldest (ts := [.pump]) hturn hr hw hsound he
      (by simp [taskStep, he])
    exact ⟨t, ht, hhist, hrx, fun _ => ⟨hmore.trans hthre.symm, hsends⟩, nofun⟩
  | true =>
    have hk : taskStep .pump ((s.setInputs rest).setLineDraw d) = .next ([], (s.setInputs rest).setLineDraw d) := by
      simp [taskStep, he]
    exact ⟨_, step_part hturn hk, by simp, by simp, nofun, fun _ => ⟨by simp, by simp, by simp⟩⟩

end Sys2Proof.Machine
end

section
/-! The receive side: the drain, the copy loop, `clear_receive` with the poll after it, and the ERR duty (rules R202,
R205 to R207, R209, R211). -/

namespace Sys2Proof.Machine

@[simp] theorem Uart.dropRx_rxFifo (u : Uart) : u.dropRx.rxFifo = u.rxFifo.tail := rfl
@[simp] theorem Uart.dropRx_lineError (u : Uart) : u.dropRx.lineError = u.lineError := rfl

section
variable {s : State} {b : Byte} {bs got : List Byte} {cap : Nat}

theorem taskStep_drain_none (hb : s.uart.rxFifo = []) : taskStep .drain s = .next ([], s) := by simp [taskStep, hb]

theorem taskStep_drain_full (hr : s.rst = false) (hw : s.rx.inClearWindow = false) (hb : s.uart.rxFifo = b :: bs)
    (hf : s.rx.full = true) :
    taskStep .drain s = .next ([], ((s.setUart s.uart.dropRx).edgeW .rx s.rx).record (.overflow .rx b)) := by
  have hpush : execPush .rx b (s.setUart s.uart.dropRx) = .next _ := execPush_full hr hw hf
  simp [taskStep, hb, drainByte, hpush, hf]

theorem taskStep_drain_room (hr : s.rst = false) (hw : s.rx.inClearWindow = false) (hb : s.uart.rxFifo = b :: bs)
    (hf : s.rx.full = false) :
    taskStep .drain s = .next ([.drain], (s.setUart s.uart.dropRx).edgeW .rx (s.rx.store b)) := by
  have hpush : execPush .rx b (s.setUart s.uart.dropRx) = .next _ := execPush_room hr hw hf
  simp [taskStep, hb, drainByte, hpush, hf]

theorem taskStep_copy_cap (h : cap ≤ got.length) :
    taskStep (.copy cap got) s = .next ([], s.giveBack (.bytes got)) := by simp [taskStep, copyStep, h]

theorem taskStep_copy_empty (hr : s.rst = false) (h : got.length < cap) (he : s.rx.empty = true) :
    taskStep (.copy cap got) s = .next ([], (s.edgeR .rx s.rx).giveBack (.bytes got)) := by
  simp [taskStep, copyStep, Nat.not_le.2 h, he, execRnop_running hr]

theorem taskStep_copy_some (hr : s.rst = false) (hw : s.rx.inClearWindow = false) (h : got.length < cap)
    (he : s.rx.empty = false) (hb : memRead s.rx.mem s.rx.readIndex = some b) :
    taskStep (.copy cap got) s = .next ([.copy cap (got ++ [b])], s.edgeR .rx (s.rx.take b)) := by
  have hpop : execPop .rx s = .next (s.edgeR .rx (s.rx.take b)) := execPop_some hr hw he hb
  simp [taskStep, copyStep, Nat.not_le.2 h, he, hpop]

end

/-- Settles O54: by the hardware's bytes, and then by `full`. -/
theorem drainStep : Obligations.DrainStep := by
  intro s rest d a more ha hin ht hr hw
  have hturn : s.Turn a d rest .drain more := by
    refine ⟨hin, ht, ?_, nofun⟩
    rcases ha with rfl | ⟨-, hfree⟩
    · simp
    · exact fun _ => hfree
  cases hb : s.uart.rxFifo with
  | nil =>
    exact ⟨_, step_part hturn (taskStep_drain_none hb), by simp, by simp [hb], nofun, nofun,
      fun _ => ⟨by simp, by simp, by simp⟩⟩
  | cons b bs =>
    cases hf : s.rx.full with
    | true =>
      refine ⟨_, step_part hturn (taskStep_drain_full hr hw hb hf), by simp, by simp [hb], ?_, nofun, nofun⟩
      rintro _ _ ⟨⟩ -
      exact ⟨by simp, by simp, by simp⟩
    | false =>
      refine ⟨_, step_part hturn (taskStep_drain_room hr hw hb hf), by simp, by simp [hb], nofun, ?_,
        nofun⟩
      rintro _ _ ⟨⟩ -
      exact ⟨by simp, by simp, by simp [ht]⟩

/-- Settles O55: by the capacity, and then by `empty`. -/
theorem receiveCopyStep : Obligations.ReceiveCopyStep := by
  intro s rest d cap got more hin hmain hr hw hfree hsound
  have hturn : s.Turn .main d rest (.copy cap got) more := ⟨hin, hmain, fun _ => hfree, nofun⟩
  rcases Nat.lt_or_ge got.length cap with hlt | hge
  · cases he : s.rx.empty with
    | true =>
      exact ⟨_, step_part hturn (taskStep_copy_empty hr hlt he), by simp, by simp,
        fun _ => ⟨by simp, by simp, by simp⟩, nofun⟩
    | false =>
      obtain ⟨b, holdest, hslot⟩ := hsound.oldest he
      exact ⟨_, step_part hturn (taskStep_copy_some hr hw hlt he hslot), by simp, by simp,
        fun h => by simp [Nat.not_le.2 hlt] at h, fun _ _ => ⟨b, holdest, by simp, by simp⟩⟩
  · exact ⟨_, step_part hturn (taskStep_copy_cap hge), by simp, by simp,
      fun _ => ⟨by simp, by simp, by simp⟩, fun hlt => absurd hlt (Nat.not_lt.2 hge)⟩

section
variable {s : State} {a : Agent} {d : Option Draw} {rest : List Input} {more : List Task}

/-! The parts that answer at once. -/

theorem step_clearRx (hin : s.inputs = .run a d :: rest) (ht : s.tasks a = .clearRx :: more)
    (hfree : s.handlerDrives (.c .rx) = false) (hr : s.rst = false) (hclr : s.rx.clr = false) (hrda : s.rda = []) :
    step s = .next ((((s.setInputs rest).setLineDraw d).clearFifo .rx).setTasks a more) := by
  refine step_part (ts := []) ⟨hin, ht, fun _ => hfree, fun _ => ⟨hclr, hrda⟩⟩ ?_
  rw [taskStep, execClear_running (by simpa using hr), onNext_next]

theorem step_discardRx (hin : s.inputs = .run a d :: rest) (ht : s.tasks a = .discardRx :: more) :
    step s = .next ((((s.setInputs rest).setLineDraw d).setUart s.uart.dropRx).setTasks a more) :=
  step_part ⟨hin, ht, fun _ => rfl, nofun⟩ rfl

theorem step_lsrRead (hin : s.inputs = .run a d :: rest) (ht : s.tasks a = .lsrRead :: more) :
    step s = .next ((((s.setInputs rest).setLineDraw d).setUart { s.uart with lineError := false }).setTasks a more) :=
  step_part ⟨hin, ht, fun _ => rfl, nofun⟩ rfl

theorem step_pollPending (hin : s.inputs = .run a d :: rest) (ht : s.tasks a = .pollPending :: more) :
    step s = .next ((((s.setInputs rest).setLineDraw d).giveBack
      (.pending (!s.rx.empty || !s.uart.rxFifo.isEmpty))).setTasks a more) :=
  step_part ⟨hin, ht, fun _ => rfl, nofun⟩ rfl

/-- `clear_receive` empties RX and discards one hardware byte (rule R206). -/
theorem runs_clearReceive
    (hin : s.inputs = .call .clearReceive :: .run .main none :: .run .main none :: rest) (hready : s.uart.ready = true)
    (hmain : s.main = []) (hrda : s.rda = []) (hfree : s.handlerDrives (.c .rx) = false) (hr : s.rst = false)
    (hclr : s.rx.clr = false) :
    ∃ t, Runs 3 s t ∧ t.inputs = rest ∧ t.main = [] ∧ t.uart = s.uart.dropRx ∧ t.rx = s.rx.cleared := by
  have hcall := step_call hin hready
  rw [hmain, List.nil_append] at hcall
  exact ⟨_, runs_succ.2 ⟨_, hcall, runs_succ.2 ⟨_, step_clearRx rfl rfl hfree hr hclr hrda,
    runs_succ.2 ⟨_, step_discardRx rfl rfl, runs_zero.2 rfl⟩⟩⟩, rfl, rfl, rfl, rfl⟩

/-- `has_pending_receive_data` as a run (rule R207). -/
theorem runs_hasPending (hin : s.inputs = .call .hasPending :: .run .main none :: rest) (hready : s.uart.ready = true)
    (hmain : s.main = []) :
    ∃ t, Runs 2 s t ∧ t.returned = some (.pending (!s.rx.empty || !s.uart.rxFifo.isEmpty)) ∧ t.rx = s.rx ∧
      t.inputs = rest ∧ t.main = [] := by
  have hcall := step_call hin hready
  rw [hmain, List.nil_append] at hcall
  exact ⟨_, runs_succ.2 ⟨_, hcall, runs_succ.2 ⟨_, step_pollPending rfl rfl, runs_zero.2 rfl⟩⟩, rfl, rfl, rfl, rfl⟩

end

/-- Settles O56: CLEAR leaves RX empty, and the discard takes the one hardware byte. -/
theorem clearReceiveThenNothingPending : Obligations.ClearReceiveThenNothingPending := by
  refine ⟨fun s rest d more hin hmain => step_pollPending hin hmain,
    fun s rest hin hready hmain hrda hfree hr hclr hlen => ?_⟩
  obtain ⟨u, hclear, huin, humain, huart, hrx⟩ := runs_clearReceive hin hready hmain hrda hfree hr hclr
  obtain ⟨t, hpoll, hret, htrx, htin, htmain⟩ := runs_hasPending huin (by rw [huart]; exact hready) humain
  have hempty : u.rx.empty = true := by rw [hrx, s.rx.cleared_zeroed.empty]
  have hnone : u.uart.rxFifo = [] := by
    rw [huart]
    exact List.eq_nil_of_length_eq_zero (by simp; omega)
  exact ⟨t, runs_add hclear hpoll, by simp [hret, hempty, hnone], by rw [htrx, hempty], htin, htmain⟩

/-- Settles O57: each part of the duty changes one field of the UART and nothing else. -/
theorem errDutyTouchesNoFifo : Obligations.ErrDutyTouchesNoFifo := by
  intro s rest hin hready herr
  have hirq := step_irq_err hin hready
  rw [herr, List.nil_append] at hirq
  exact ⟨_, runs_succ.2 ⟨_, hirq, runs_succ.2 ⟨_, step_lsrRead rfl rfl,
    runs_succ.2 ⟨_, step_discardRx rfl rfl, runs_zero.2 rfl⟩⟩⟩, by simp, by simp, by simp, by simp, by simp,
    by simp, by simp, by simp⟩

end Sys2Proof.Machine
end

section
/-! A port line beside running sequences (rules R246, R275, U8): when its command is a second driver, and what one step
of the machine then answers. -/

namespace Sys2Proof.Machine

section
variable {s : State} {l : Line} {rest : List Input}

/-! A line presented next, by whether it is a second driver. -/

theorem step_line_alone (hin : s.inputs = .line l :: rest) (h : secondDriver (decode l.word) s = none) :
    step s = exec (decode l.word) ((s.setInputs rest).setLineDraw l.draw) := by
  rw [step_line hin, runLine_alone (by rwa [secondDriver_setInputs])]

theorem step_line_second {q : Refusal} (hin : s.inputs = .line l :: rest)
    (h : secondDriver (decode l.word) s = some q) : step s = .refused q := by
  rw [step_line hin, runLine_second (by rwa [secondDriver_setInputs])]

theorem State.withFetchWord_of_ok {nbits w : Nat} {word : PortWord} (h : tablePortWord nbits w = .ok word) :
    s.withFetchWord nbits w = s.setInputs (.line { word := word, draw := none } :: s.inputs) := by
  simp [State.withFetchWord, h]

end

/-- Settles O4: the input pending behind the line does not make it a second driver. -/
theorem stepRunsTheDecodedInstruction : Obligations.StepRunsTheDecodedInstruction :=
  fun _ _ _ hin => ⟨step_line_alone hin, fun _ => step_line_second hin⟩

/-- Settles O5: the word is a line without a draw, presented before everything pending, and its step takes it away. -/
theorem fetchWordRunsNext : Obligations.FetchWordRunsNext := by
  intro s nbits w word hword
  rw [State.withFetchWord_of_ok hword, ← secondDriver_setInputs (decode word) (.line ⟨word, none⟩ :: s.inputs)]
  exact ⟨step_line_alone (l := ⟨word, none⟩) rfl, fun _ => step_line_second (l := ⟨word, none⟩) rfl⟩

section
variable {s : State} {F : Inst} {p : Port}

/-! Which ports the agents drive. -/

theorem State.drives_of_mem {a : Agent} {k : Task} (hk : k ∈ s.tasks a) (hp : k.port = some p)
    (h : p ≠ .r .tx ∨ (s.tasks a).head? = some k) : s.drives p = true :=
  State.drives_of_agent (drivesPort_of_mem hk hp h)

theorem State.drives_of_no_tasks (h : ∀ a, s.tasks a = []) : s.drives p = false := by
  have hmain : s.main = [] := h .main
  have hkicker : s.kicker = [] := h .kicker
  have hrda : s.rda = [] := h .rda
  have hthre : s.thre = [] := h .thre
  have herr : s.err = [] := h .err
  simp [State.drives, hmain, hkicker, hrda, hthre, herr]

/-- No part of a sequence drives TX.C: the transport clears RX alone (rule R206). -/
theorem Task.port_ne_c_tx (k : Task) : k.port ≠ some (.c .tx) := by
  cases k <;> simp [Task.port]

theorem drivesPort_c_tx (ts : List Task) : drivesPort ts (.c .tx) = false := by
  cases ts <;> simp [drivesPort, Task.port_ne_c_tx]

theorem State.drives_c_tx : s.drives (.c .tx) = false := by simp [State.drives, drivesPort_c_tx]

/-! Each operating command, on a port that is driven. -/

theorem secondDriver_push {b : Byte} (h : s.drives (.w F) = true) :
    secondDriver (.push F b) s = some (.twoDrivers (.w F)) := by simp [secondDriver, h]

theorem secondDriver_pop (h : s.drives (.r F) = true) : secondDriver (.pop F) s = some (.twoDrivers (.r F)) := by
  simp [secondDriver, h]

theorem secondDriver_advance {i : Instr} (hi : i = .advance ∨ i = .tickAdvance) (h : s.drives .d = true) :
    secondDriver i s = some (.twoDrivers .d) := by
  rcases hi with rfl | rfl <;> simp [secondDriver, h]

theorem secondDriver_clear_twoDrivers (h : s.drives (.c F) = true) :
    secondDriver (.clear F) s = some (.twoDrivers (.c F)) := by simp [secondDriver, h]

theorem secondDriver_clear_overlap (hc : s.drives (.c F) = false)
    (h : s.drives (.w F) = true ∨ s.drives (.r F) = true) : secondDriver (.clear F) s = some (.clearOverlap F) := by
  simp [secondDriver, hc, h]

theorem secondDriver_of_undriven (h : ∀ p, s.drives p = false) (i : Instr) : secondDriver i s = none := by
  cases i <;> simp [secondDriver, h]

end

section
variable {s : State} {l : Line} {rest : List Input}

/-- A CLEAR of `F` beside a driver of any port of `F`. -/
theorem step_clear_driven {F : Inst} (hin : s.inputs = .line l :: rest) (hl : decode l.word = .clear F)
    (h : s.drives (.w F) = true ∨ s.drives (.r F) = true ∨ s.drives (.c F) = true) :
    step s = .refused (.clearOverlap F) ∨ step s = .refused (.twoDrivers (.c F)) := by
  cases hc : s.drives (.c F) with
  | true => exact .inr (step_line_second hin (by rw [hl, secondDriver_clear_twoDrivers hc]))
  | false =>
    have hwr : s.drives (.w F) = true ∨ s.drives (.r F) = true := by simpa [hc] using h
    exact .inl (step_line_second hin (by rw [hl, secondDriver_clear_overlap hc hwr]))

end

section
variable {s : State} {more : List Task}

/-! `clear_receive` of the mainline beside the clear pin of RX or the RDA drain (rules R206, R275, R276). -/

theorem agentStep_clearRx_pin (ht : s.main = .clearRx :: more) (hclr : s.rx.clr = true) :
    agentStep .main s = .refused (.twoDrivers (.c .rx)) := by
  simp [agentStep, ht, hclr, Task.port]

theorem agentStep_clearRx_drain (ht : s.main = .clearRx :: more) (hrda : s.rda ≠ []) :
    agentStep .main s = .refused (.clearOverlap .rx) ∨ agentStep .main s = .refused (.twoDrivers (.c .rx)) := by
  cases hclr : s.rx.clr with
  | true => exact .inr (agentStep_clearRx_pin ht hclr)
  | false =>
    cases hfree : s.handlerDrives (.c .rx) with
    | true => exact .inr (by simp [agentStep, ht, Task.port, hfree])
    | false => exact .inl (by simp [agentStep, ht, Task.port, hfree, hclr, hrda])

end

/-- Settles O58: a part in an agent's list drives its port, and the line on a driven port is refused; with no parts no
port is driven; `clear_receive` is asked about the pin before the drain. -/
theorem secondDriversAreRefused : Obligations.SecondDriversAreRefused := by
  refine ⟨fun s l rest a t hin ht => ?_, fun i s => ⟨?_, fun hidle => ?_⟩,
    fun s rest d more hin hmain => ⟨fun hclr => ?_, fun hrda => ?_⟩⟩
  · have hdrives {p : Port} (hp : t.port = some p) (hne : p ≠ .r .tx) : s.drives p = true :=
      State.drives_of_mem ht hp (.inl hne)
    have hnext (hp : t.port = some (.r .tx)) (hhead : (s.tasks a).head? = some t) : s.drives (.r .tx) = true :=
      State.drives_of_mem ht hp (.inr hhead)
    refine ⟨fun F b hl hp => ?_, fun hl hp => ?_, fun hl hp hhead => ?_, fun hl hp => ?_, fun hl hp => ?_,
      fun hl hp => ?_⟩
    · exact step_line_second hin (by rw [hl, secondDriver_push (hdrives hp nofun)])
    · exact step_line_second hin (by rw [hl, secondDriver_pop (hdrives hp (by decide))])
    · exact step_line_second hin (by rw [hl, secondDriver_pop (hnext hp hhead)])
    · exact step_line_second hin (secondDriver_advance hl (hdrives hp nofun))
    · exact step_clear_driven hin hl
        (hp.imp (hdrives · nofun) (Or.imp (hdrives · (by decide)) (hdrives · nofun)))
    · have hwr : s.drives (.w .tx) = true ∨ s.drives (.r .tx) = true :=
        hp.imp (hdrives · nofun) fun ⟨htx, hhead⟩ => hnext htx hhead
      exact step_line_second hin (by rw [hl, secondDriver_clear_overlap State.drives_c_tx hwr])
  · rintro (⟨F, rfl | rfl | rfl⟩ | rfl | rfl) <;> rfl
  · exact secondDriver_of_undriven (fun _ => State.drives_of_no_tasks hidle) i
  · rw [step_run hin]
    exact agentStep_clearRx_pin hmain hclr
  · rw [step_run hin]
    exact agentStep_clearRx_drain hmain hrda

end Sys2Proof.Machine
end

section
/-! Two lines presented at one instant (rules R102, R246). -/

namespace Sys2Proof.Machine

section
variable {s : State} {a b : Line} {rest : List Input} {F : Inst}

/-- Lines presented at one instant next are answered together. -/
theorem step_together {ls : List Line} (hin : s.inputs = .together ls :: rest) :
    step s = together ls (s.setInputs rest) := by simp [step, hin]

theorem together_onePort (h : a.word.port = b.word.port) :
    together [a, b] s = .refused (.twoDrivers a.word.port) := by
  simp [together, firstTwice, decode_port, h]

theorem operatesOn_eq_some {i : Instr} : operatesOn i = some F ↔ (∃ x, i = .push F x) ∨ i = .pop F := by
  cases i <;> simp [operatesOn]

/-- CLEAR of `F` stands on neither port of a PUSH or POP of `F`, so the pair is refused as an overlap in either order. -/
theorem together_clear_operating (ha : decode a.word = .clear F) (hb : operatesOn (decode b.word) = some F) :
    together [a, b] s = .refused (.clearOverlap F) ∧ together [b, a] s = .refused (.clearOverlap F) := by
  rcases operatesOn_eq_some.1 hb with ⟨x, hx⟩ | hx <;>
    simp [together, firstTwice, Instr.port, operatesOn, clearsAt, ha, hx]

theorem operatesOn_decode {word : PortWord} (h : word = .r F 1#1 ∨ ∃ x : Byte, word = .w F (1#1 ++ x)) :
    operatesOn (decode word) = some F := by
  obtain rfl | ⟨x, rfl⟩ := h
  · rfl
  · rw [(wordsDecodeAsTheTableSays F).1 x]; rfl

end

/-- Settles O47: the ports are asked first, and CLEAR and a PUSH or POP stand on two ports. -/
theorem forbiddenCombinationsAreRefused : Obligations.ForbiddenCombinationsAreRefused := by
  intro s rest a b hin
  rw [step_together hin]
  refine ⟨together_onePort, fun F => ?_⟩
  rintro (⟨ha, hb⟩ | ⟨hb, ha⟩)
  · exact (together_clear_operating (by rw [ha]; rfl) (operatesOn_decode hb)).1
  · exact (together_clear_operating (by rw [hb]; rfl) (operatesOn_decode ha)).2

end Sys2Proof.Machine
end

section
/-! The start of a sequence or a handler (rules R246(d), R247, R273). -/

namespace Sys2Proof.Machine

section
variable {s : State} {rest : List Input} {q : Irq}

theorem State.start_ready (h : s.uart.ready = true) (a : Agent) (ts : List Task) :
    s.start a ts = .next (s.setTasks a (s.tasks a ++ ts)) := by simp [State.start, h]

theorem State.start_notReady (h : s.uart.ready = false) (a : Agent) (ts : List Task) :
    s.start a ts = .refused .notInitialised := by simp [State.start, h]

theorem step_call_notReady {c : Call} (hin : s.inputs = .call c :: rest) (h : s.uart.ready = false) :
    step s = .refused .notInitialised := by
  simp [step, hin, State.start_notReady, h]

/-- An interrupt presented next is taken. -/
theorem step_irq (hin : s.inputs = .irq q :: rest) : step s = interrupt q (s.setInputs rest) := by simp [step, hin]

theorem step_irq_notReady (hin : s.inputs = .irq q :: rest) (hq : q ≠ .timer) (h : s.uart.ready = false) :
    step s = .refused .notInitialised := by
  cases q with
  | timer => exact absurd rfl hq
  | rda => simp [step_irq hin, interrupt, State.start_notReady, h]
  | thre => simp [step_irq hin, interrupt, State.start_notReady, h]
  | err => simp [step_irq hin, interrupt, State.start_notReady, h]

theorem step_irq_rda (hin : s.inputs = .irq .rda :: rest) (h : s.uart.ready = true) :
    step s = if s.rx.inClearWindow then .refused (.clearWindow .rx)
      else .next ((s.setInputs rest).setTasks .rda (s.rda ++ [.drain])) := by
  rw [step_irq hin, interrupt, State.start_ready (s := s.setInputs rest) h]; rfl

theorem step_irq_thre (hin : s.inputs = .irq .thre :: rest) (h : s.uart.ready = true) :
    step s = .next (if s.uart.thrArmed then ((s.setInputs rest).setTasks .thre (s.thre ++ [.pump])).disarmThre
      else s.setInputs rest) := by
  simp [step_irq hin, interrupt, State.start_ready, h]

end

/-- Settles O48: every start but the timer's asks the UART first; then RDA asks the clear window, and THRE its flag. -/
theorem sequencesStartInTurn : Obligations.SequencesStartInTurn := by
  refine ⟨fun s rest c hin => ⟨step_call_notReady hin, step_call hin⟩,
    fun s rest q hin => ⟨?timer, step_irq_notReady hin, fun hready => ⟨?rdaWindow, ?rda, ?threSpent, ?thre, ?err⟩⟩⟩
  case timer => rintro rfl; exact step_irq hin
  case rdaWindow => rintro rfl hw; rw [step_irq_rda hin hready, hw, if_pos rfl]
  case rda => rintro rfl hw; rw [step_irq_rda hin hready, hw, if_neg Bool.false_ne_true]
  case threSpent => rintro rfl harmed; rw [step_irq_thre hin hready, harmed, if_neg Bool.false_ne_true]
  case thre => rintro rfl harmed; rw [step_irq_thre hin hready, harmed, if_pos rfl]; rfl
  case err => rintro rfl; exact step_irq_err hin hready

end Sys2Proof.Machine
end

section
/-! PUSH and POP of an instance in its clear window, and while its `clr` is 1 (rules R102, R276, U4). -/

namespace Sys2Proof.Machine

/-- The window is open while `clr` is 1 or edges of either clock are still to pass. -/
theorem Fifo.inClearWindow_iff {f : Fifo} : f.inClearWindow = true ↔ f.clr = true ∨ f.wHold ≠ 0 ∨ f.rHold ≠ 0 := by
  simp [Fifo.inClearWindow, or_assoc]

section
variable {s : State} {F : Inst}

theorem execPush_window (b : Byte) (hr : s.rst = false) (hw : (s.fifo F).inClearWindow = true) :
    execPush F b s = .refused (.clearWindow F) := by
  simp [execPush, hr, hw]

theorem execPop_window (hr : s.rst = false) (hw : (s.fifo F).inClearWindow = true) :
    execPop F s = .refused (.clearWindow F) := by
  simp [execPop, hr, hw]

theorem execPush_inReset (b : Byte) (hr : s.rst = true) : execPush F b s = .refused .commandDuringReset := by
  simp [execPush, hr]

theorem execPop_inReset (hr : s.rst = true) : execPop F s = .refused .commandDuringReset := by
  simp [execPop, hr]

end

/-- Settles O21: `clr` at 1 is inside the window, whose refusal stands behind that of reset alone. -/
theorem portsRefusedWhileClrIsHigh : Obligations.PortsRefusedWhileClrIsHigh := by
  refine fun F s => ⟨fun hclr => ?clrHigh,
    fun hr hw => ⟨fun b => execPush_window b hr hw, execPop_window hr hw⟩, Fifo.inClearWindow_iff⟩
  case clrHigh =>
    have hw : (s.fifo F).inClearWindow = true := Fifo.inClearWindow_iff.mpr (.inl hclr)
    cases hr : s.rst with
    | true => exact ⟨fun b => ⟨_, execPush_inReset b hr⟩, _, execPop_inReset hr⟩
    | false => exact ⟨fun b => ⟨_, execPush_window b hr hw⟩, _, execPop_window hr hw⟩

end Sys2Proof.Machine
end

section
/-! `encode` and `decode` as inverses (rules R93 to R99): a word of format W is its enable bit and its byte. -/

namespace Sys2Proof

theorem decode_encode (i : Instr) : decode (encode i) = i := by
  cases i with
  | push F b =>
    obtain ⟨hpush, -⟩ := wordsDecodeAsTheTableSays F
    exact hpush b
  | wnop | pop | rnop | clear | cnop | dnop | tick | advance | tickAdvance => rfl

theorem encode_port (i : Instr) : (encode i).port = i.port := by rw [← decode_port, decode_encode]

theorem append_wData_of_wEn {word : BitVec 9} (h : wEn word = true) : 1#1 ++ wData word = word := by
  ext k hk
  rw [BitVec.getElem_append]
  split
  · next hlow => simp [wData, BitVec.getLsbD_eq_getElem hk]
  · next hhigh =>
    obtain rfl : k = 8 := by omega
    simpa [wEn, BitVec.getLsbD_eq_getElem hk] using h.symm

theorem encode_decode (word : PortWord) (h : ∀ F, decode word ≠ .wnop F) : encode (decode word) = word := by
  cases word with
  | w F word =>
    cases hen : wEn word with
    | false => exact absurd (decode_w_of_not_wEn hen) (h F)
    | true => rw [decode_w_of_wEn hen, encode, append_wData_of_wEn hen]
  | r F word => obtain rfl | rfl := BitVec.eq_zero_or_eq_one word <;> rfl
  | c F word => obtain rfl | rfl := BitVec.eq_zero_or_eq_one word <;> rfl
  | d word => clear h; revert word; decide

/-- Settles O3: each word is rebuilt from its control bits and its byte, which WNOP alone does not keep. -/
theorem decodeAndEncodeAgree : Obligations.DecodeAndEncodeAgree := by
  refine ⟨fun i _ => ⟨decode_encode i, encode_port i⟩, encode_decode, fun F u => ?_⟩
  rw [decode_w_of_not_wEn (wEn_append 0#1 u), encode]

end Sys2Proof
end

section
/-! The invariants of the whole machine (rules R44, R140): every step is one of the listed moves, and each move keeps
them. -/

namespace Sys2Proof.Machine

/-- Settles O34: by the moves a step can make of each block, each of which keeps that block's invariant. -/
theorem stepKeepsSound : Obligations.StepKeepsSound := fun _ _ => State.Sound.step

/-- Settles O35: both instances and the display are sound at reset. -/
theorem resetIsSound : Obligations.ResetIsSound := State.resetWith_sound

/-- Settles O40: by `empty`; the oldest byte of a sound instance is in the slot POP reads. -/
theorem popCompletesWhenSound : Obligations.PopCompletesWhenSound := by
  intro F s h hr hw
  cases he : (s.fifo F).empty with
  | true => exact ⟨_, execPop_empty hr hw he, nofun⟩
  | false =>
    obtain ⟨b, holdest, hslot⟩ := h.oldest he
    exact ⟨_, execPop_some hr hw he hslot, fun _ => ⟨by simp [holdest], by simp⟩⟩

end Sys2Proof.Machine
end

section
/-! The frames of the write, the read and the clear port (rules R120, R125). -/

namespace Sys2Proof.Machine

section
variable (s : State) (F : Inst) (f post : Fifo)

theorem Fifo.sameReadSide_refl : f.SameReadSide f := ⟨rfl, rfl, rfl, rfl, rfl, rfl, rfl⟩

theorem Fifo.sameWriteSide_refl : f.SameWriteSide f := ⟨rfl, rfl, rfl, rfl, rfl, rfl, rfl⟩

theorem State.sameOutside_refl : s.SameOutside F s := by simp [State.SameOutside, State.SameSurroundings]

theorem State.sameOutside_edgeW : s.SameOutside F (s.edgeW F post) :=
  ⟨fun _ hG => State.edgeW_fifo_other _ _ _ _ hG, by simp, by simp [State.SameSurroundings]⟩

theorem State.sameOutside_edgeR : s.SameOutside F (s.edgeR F post) :=
  ⟨fun _ hG => State.edgeR_fifo_other _ _ _ _ hG, by simp, by simp [State.SameSurroundings]⟩

theorem State.sameOutside_clearFifo : s.SameOutside F (s.clearFifo F) :=
  ⟨fun _ hG => State.clearFifo_fifo_other _ _ _ hG, by simp, by simp [State.SameSurroundings]⟩

end

section
variable {s t : State} {F : Inst}

/-- The history is not part of what lies outside an instance. -/
theorem State.SameOutside.record (h : s.SameOutside F t) (e : Ghost) : s.SameOutside F (t.record e) := by
  obtain ⟨hfifo, hdisp, haround⟩ := h
  exact ⟨fun G hG => by rw [State.record_fifo, hfifo G hG], hdisp, haround⟩

end

/-- Settles O13: by the answers of WNOP and PUSH; only an effective PUSH writes a slot. -/
theorem writePortFrame : Obligations.WritePortFrame := by
  intro F i s t hi h
  obtain rfl | ⟨b, rfl⟩ := hi
  · obtain ⟨-, rfl⟩ | ⟨-, rfl⟩ := execWnop_next h
    · exact ⟨Fifo.sameReadSide_refl _, State.sameOutside_refl _ F, rfl, fun _ _ => rfl, fun _ => ⟨rfl, rfl, rfl, rfl⟩⟩
    · rw [State.edgeW_fifo_same]
      exact ⟨Fifo.sameReadSide_refl _, s.sameOutside_edgeW F _, rfl, fun _ _ => rfl, fun _ => ⟨rfl, rfl, rfl, rfl⟩⟩
  · obtain ⟨-, -, ⟨-, rfl⟩ | ⟨hf, rfl⟩⟩ := execPush_next h
    · rw [State.record_fifo, State.edgeW_fifo_same]
      exact ⟨Fifo.sameReadSide_refl _, (s.sameOutside_edgeW F _).record _, rfl, fun _ _ => rfl,
        fun _ => ⟨rfl, rfl, rfl, rfl⟩⟩
    · rw [State.edgeW_fifo_same]
      refine ⟨Fifo.sameReadSide_refl _, s.sameOutside_edgeW F _, rfl, fun a ha => ?_, by simp [hf]⟩
      have hslot : a ≠ (s.fifo F).writeIndex := by simpa [hf] using ha
      exact memRead_memWrite_other _ b hslot

/-- Settles O17: by the answers of RNOP and POP; none of them writes storage, and only an effective POP takes a byte. -/
theorem readPortFrame : Obligations.ReadPortFrame := by
  intro F i s t hi h
  obtain rfl | rfl := hi
  · obtain ⟨-, rfl⟩ | ⟨-, rfl⟩ := execRnop_next h
    · exact ⟨Fifo.sameWriteSide_refl _, State.sameOutside_refl _ F, rfl, fun _ => rfl, fun _ => ⟨rfl, rfl, rfl⟩,
        fun _ => rfl⟩
    · rw [State.edgeR_fifo_same]
      exact ⟨Fifo.sameWriteSide_refl _, s.sameOutside_edgeR F _, rfl, fun _ => rfl, fun _ => ⟨rfl, rfl, rfl⟩,
        fun _ => rfl⟩
  · obtain ⟨-, -, ⟨-, rfl⟩ | ⟨he, b, -, rfl⟩⟩ := execPop_next h
    · rw [State.record_fifo, State.edgeR_fifo_same]
      exact ⟨Fifo.sameWriteSide_refl _, (s.sameOutside_edgeR F _).record _, rfl, fun _ => rfl,
        fun _ => ⟨rfl, rfl, rfl⟩, nofun⟩
    · rw [State.edgeR_fifo_same]
      exact ⟨Fifo.sameWriteSide_refl _, s.sameOutside_edgeR F _, rfl, fun _ => rfl, by simp [he], nofun⟩

/-- Settles O19: where CLEAR answers, it replaces the FIFO by `Fifo.cleared` and records its event. -/
theorem clearFrame : Obligations.ClearFrame := by
  intro F s t h
  obtain ⟨-, rfl⟩ := execClear_next h
  rw [State.clearFifo_fifo_same]
  exact ⟨s.sameOutside_clearFifo F, by simp, fun _ => rfl, rfl, rfl, rfl, rfl⟩

end Sys2Proof.Machine
end

section
/-! What each command can change, read off the frames of the four ports (rules R24, R25, R40 to R42), and the events it
can record (rule R248). -/

namespace Sys2Proof.Machine

/-! The commands of each port of an instance. -/

theorem port_eq_w {i : Instr} {F : Inst} : i.port = .w F ↔ i = .wnop F ∨ ∃ b, i = .push F b := by
  cases i <;> simp [Instr.port]

theorem port_eq_r {i : Instr} {F : Inst} : i.port = .r F ↔ i = .rnop F ∨ i = .pop F := by
  cases i <;> simp [Instr.port]

theorem port_eq_c {i : Instr} {F : Inst} : i.port = .c F ↔ i = .cnop F ∨ i = .clear F := by
  cases i <;> simp [Instr.port]

section
variable {i : Instr} {s t : State} {F : Inst}

/-- A command of a port of `F` leaves everything outside `F`. -/
theorem exec_sameOutside (h : exec i s = .next t) (hp : i.port = .w F ∨ i.port = .r F ∨ i.port = .c F) :
    s.SameOutside F t := by
  rcases hp with hw | hr | hc
  · obtain ⟨-, hout, -⟩ := writePortFrame F i s t (port_eq_w.1 hw) h
    exact hout
  · obtain ⟨-, hout, -⟩ := readPortFrame F i s t (port_eq_r.1 hr) h
    exact hout
  · obtain rfl | rfl := port_eq_c.1 hc
    · cases h; exact State.sameOutside_refl _ F
    · obtain ⟨hout, -⟩ := clearFrame F s t h
      exact hout

/-- A command of no port of `F` leaves `F`. -/
theorem exec_fifo_other (h : exec i s = .next t) (hw : i.port ≠ .w F) (hr : i.port ≠ .r F) (hc : i.port ≠ .c F) :
    t.fifo F = s.fifo F := by
  have other {G : Inst} (hp : i.port = .w G ∨ i.port = .r G ∨ i.port = .c G) : t.fifo F = s.fifo F := by
    obtain ⟨hother, -⟩ := exec_sameOutside h hp
    refine hother F ?_
    rintro rfl
    simp [hw, hr, hc] at hp
  cases hp : i.port with
  | w G => exact other (.inl hp)
  | r G => exact other (.inr (.inl hp))
  | c G => exact other (.inr (.inr hp))
  | d =>
    obtain ⟨⟨hsame, -⟩, -⟩ := displayPortFrame i s t hp h
    exact hsame F

/-- A command of neither the write nor the clear port leaves the write side. -/
theorem exec_sameWriteSide (h : exec i s = .next t) (hw : i.port ≠ .w F) (hc : i.port ≠ .c F) :
    (s.fifo F).SameWriteSide (t.fifo F) := by
  by_cases hr : i.port = .r F
  · exact (readPortFrame F i s t (port_eq_r.1 hr) h).1
  · rw [exec_fifo_other h hw hr hc]
    exact Fifo.sameWriteSide_refl _

/-- A command of neither the read nor the clear port leaves the read side. -/
theorem exec_sameReadSide (h : exec i s = .next t) (hr : i.port ≠ .r F) (hc : i.port ≠ .c F) :
    (s.fifo F).SameReadSide (t.fifo F) := by
  by_cases hw : i.port = .w F
  · exact (writePortFrame F i s t (port_eq_w.1 hw) h).1
  · rw [exec_fifo_other h hw hr hc]
    exact Fifo.sameReadSide_refl _

/-- Of the write and the clear port only PUSH and CLEAR touch storage and the write cursor. -/
theorem exec_writeCursor (h : exec i s = .next t) (hclear : i ≠ .clear F) (hpush : ∀ b, i ≠ .push F b) :
    (t.fifo F).mem = (s.fifo F).mem ∧ (t.fifo F).wptr = (s.fifo F).wptr ∧ (t.fifo F).wgray = (s.fifo F).wgray := by
  by_cases hw : i.port = .w F
  · obtain rfl | ⟨b, rfl⟩ := port_eq_w.1 hw
    · obtain ⟨-, -, -, -, hkeeps⟩ := writePortFrame F _ s t (.inl rfl) h
      obtain ⟨hmem, hwptr, hwgray, -⟩ := hkeeps (.inl rfl)
      exact ⟨hmem, hwptr, hwgray⟩
    · exact absurd rfl (hpush b)
  · by_cases hc : i.port = .c F
    · obtain rfl | rfl := port_eq_c.1 hc
      · cases h; exact ⟨rfl, rfl, rfl⟩
      · exact absurd rfl hclear
    · obtain ⟨hmem, hwptr, hwgray, -⟩ := exec_sameWriteSide h hw hc
      exact ⟨hmem, hwptr, hwgray⟩

/-- Of the read and the clear port only POP and CLEAR touch the read cursor. -/
theorem exec_readCursor (h : exec i s = .next t) (hclear : i ≠ .clear F) (hpop : i ≠ .pop F) :
    (t.fifo F).rptr = (s.fifo F).rptr ∧ (t.fifo F).rgray = (s.fifo F).rgray := by
  by_cases hr : i.port = .r F
  · obtain rfl | rfl := port_eq_r.1 hr
    · obtain ⟨-, -, -, -, hkeeps, -⟩ := readPortFrame F _ s t (.inl rfl) h
      obtain ⟨hrptr, hrgray, -⟩ := hkeeps (.inl rfl)
      exact ⟨hrptr, hrgray⟩
    · exact absurd rfl hpop
  · by_cases hc : i.port = .c F
    · obtain rfl | rfl := port_eq_c.1 hc
      · cases h; exact ⟨rfl, rfl⟩
      · exact absurd rfl hclear
    · obtain ⟨hrptr, hrgray, -⟩ := exec_sameReadSide h hr hc
      exact ⟨hrptr, hrgray⟩

/-- The display's commands alone touch the display. -/
theorem exec_disp_other (h : exec i s = .next t) (hd : i.port ≠ .d) : t.disp = s.disp := by
  have other {G : Inst} (hp : i.port = .w G ∨ i.port = .r G ∨ i.port = .c G) : t.disp = s.disp := by
    obtain ⟨-, hdisp, -⟩ := exec_sameOutside h hp
    exact hdisp
  cases hp : i.port with
  | w G => exact other (.inl hp)
  | r G => exact other (.inr (.inl hp))
  | c G => exact other (.inr (.inr hp))
  | d => exact absurd hp hd

/-- The display's cursor moves only by ADVANCE, alone or with TICK. -/
theorem exec_displayCursor (h : exec i s = .next t) (ha : i ≠ .advance) (hta : i ≠ .tickAdvance) :
    t.disp.glyph = s.disp.glyph ∧ t.disp.color = s.disp.color := by
  cases i with
  | push | wnop | pop | rnop | clear | cnop => rw [exec_disp_other h nofun]; exact ⟨rfl, rfl⟩
  | dnop => cases h; exact ⟨rfl, rfl⟩
  | tick => obtain ⟨-, rfl⟩ := execTick_next h; exact ⟨rfl, rfl⟩
  | advance => exact absurd rfl ha
  | tickAdvance => exact absurd rfl hta

/-- The scan moves only by TICK, alone or with ADVANCE. -/
theorem exec_displayScan (h : exec i s = .next t) (ht : i ≠ .tick) (hta : i ≠ .tickAdvance) :
    t.disp.col = s.disp.col ∧ t.disp.mask = s.disp.mask ∧ t.disp.sel = s.disp.sel ∧ t.disp.red = s.disp.red ∧
      t.disp.grn = s.disp.grn := by
  cases i with
  | push | wnop | pop | rnop | clear | cnop => rw [exec_disp_other h nofun]; exact ⟨rfl, rfl, rfl, rfl, rfl⟩
  | dnop => cases h; exact ⟨rfl, rfl, rfl, rfl, rfl⟩
  | tick => exact absurd rfl ht
  | advance => obtain ⟨-, rfl⟩ := execAdvance_next h; simp
  | tickAdvance => exact absurd rfl hta

end

/-- Settles O32: each register's writers are the commands that its lemma above leaves out. -/
theorem everyRegisterHasItsWriter : Obligations.EveryRegisterHasItsWriter := by
  intro i s t h
  refine ⟨fun F hne => by_contra fun hnot => ?mem, fun F hne => by_contra fun hnot => ?rsync,
    fun F hne => by_contra fun hnot => ?rptr, fun F hne => by_contra fun hnot => ?wsync,
    fun hne => by_contra fun hnot => ?cursor, fun hne => by_contra fun hnot => ?scan⟩
  case mem =>
    obtain ⟨hclear, hpush⟩ := not_or.1 hnot
    simp [exec_writeCursor h hclear (not_exists.1 hpush)] at hne
  case rsync =>
    obtain ⟨hw, hc⟩ := not_or.1 hnot
    obtain ⟨-, -, -, hrsync, -⟩ := exec_sameWriteSide h hw hc
    exact hne hrsync
  case rptr =>
    obtain ⟨hclear, hpop⟩ := not_or.1 hnot
    simp [exec_readCursor h hclear hpop] at hne
  case wsync =>
    obtain ⟨hr, hc⟩ := not_or.1 hnot
    obtain ⟨-, -, hwsync, -⟩ := exec_sameReadSide h hr hc
    exact hne hwsync
  case cursor =>
    obtain ⟨hadvance, hboth⟩ := not_or.1 hnot
    simp [exec_displayCursor h hadvance hboth] at hne
  case scan =>
    obtain ⟨htick, hboth⟩ := not_or.1 hnot
    simp [exec_displayScan h htick hboth] at hne

/-- Settles O33: by the command and its answers, each of which records the one event named, or none. -/
theorem eventsOfOneCommand : Obligations.EventsOfOneCommand := by
  intro i s t h
  cases i with
  | push F b =>
    obtain ⟨-, -, ⟨-, rfl⟩ | ⟨-, rfl⟩⟩ := execPush_next h
    · exact .inr ⟨_, by simp, .inl ⟨F, b, rfl, rfl⟩⟩
    · exact .inl ⟨by simp, nofun⟩
  | wnop F =>
    obtain ⟨-, rfl⟩ | ⟨-, rfl⟩ := execWnop_next h
    · exact .inl ⟨rfl, nofun⟩
    · exact .inl ⟨by simp, nofun⟩
  | pop F =>
    obtain ⟨-, -, ⟨-, rfl⟩ | ⟨-, b, -, rfl⟩⟩ := execPop_next h
    · exact .inr ⟨_, by simp, .inr (.inl ⟨F, rfl, rfl⟩)⟩
    · exact .inl ⟨by simp, nofun⟩
  | rnop F =>
    obtain ⟨-, rfl⟩ | ⟨-, rfl⟩ := execRnop_next h
    · exact .inl ⟨rfl, nofun⟩
    · exact .inl ⟨by simp, nofun⟩
  | clear F =>
    obtain ⟨-, rfl⟩ := execClear_next h
    exact .inr ⟨_, State.clearFifo_history .., .inr (.inr ⟨F, rfl, rfl⟩)⟩
  | cnop F => cases h; exact .inl ⟨rfl, nofun⟩
  | dnop | tick | advance | tickAdvance =>
    obtain ⟨⟨-, hhist, -⟩, -⟩ := displayPortFrame _ s t rfl h
    exact .inl ⟨hhist, nofun⟩

end Sys2Proof.Machine
end

section
/-! The refusals (rules R240, R246): what lets a command be refused, and what lets a step of the machine be. -/

namespace Sys2Proof.Machine

/-! The shapes of the meanings other than PUSH and POP. -/

theorem eq_of_guard_refused {b : Bool} {t : State} {q : Refusal}
    (h : (if b then .refused .commandDuringReset else .next t : Host.Outcome State Fault Refusal) = .refused q) :
    q = .commandDuringReset ∧ b = true := by
  cases b with
  | true => cases h; exact ⟨rfl, rfl⟩
  | false => cases h

theorem hold_not_refused {b : Bool} {t u : State} {q : Refusal} :
    (if b then .next t else .next u : Host.Outcome State Fault Refusal) ≠ .refused q := by
  cases b <;> nofun

section
variable {s : State} {i : Instr} {q : Refusal}

/-- What a command can refuse, by rules R272, R276 and U1. -/
theorem exec_refused (h : exec i s = .refused q) :
    (q = .commandDuringReset ∧ s.rst = true) ∨
    (∃ F, q = .clearWindow F ∧ s.rst = false ∧ (s.fifo F).inClearWindow = true ∧ ((∃ b, i = .push F b) ∨ i = .pop F)) ∨
    (∃ F, q = .unwrittenSlot F ∧ i = .pop F ∧ ¬ (s.fifo F).Sound) := by
  cases i with
  | push F b =>
    obtain hreset | ⟨rfl, hr, hw⟩ := execPush_refused h
    · exact .inl hreset
    · exact .inr (.inl ⟨F, rfl, hr, hw, .inl ⟨b, rfl⟩⟩)
  | pop F =>
    obtain hreset | ⟨rfl, hr, hw⟩ | ⟨rfl, he, hnone⟩ := execPop_refused h
    · exact .inl hreset
    · exact .inr (.inl ⟨F, rfl, hr, hw, .inr rfl⟩)
    · refine .inr (.inr ⟨F, rfl, rfl, fun hsound => ?_⟩)
      obtain ⟨b, -, hslot⟩ := hsound.oldest he
      simp [hnone] at hslot
  | wnop F | rnop F => exact absurd h hold_not_refused
  | clear F | tick | advance | tickAdvance => exact .inl (eq_of_guard_refused h)
  | cnop F | dnop => cases h

end

/-- The refusals of a step, each with what lets it happen (rules R246, R272, R276, U1). -/
inductive State.Refuses (s : State) : Refusal → Prop where
  | inReset (h : s.rst = true) : Refuses s .commandDuringReset
  | rstBesideClr (h : s.rx.clr = true ∨ s.tx.clr = true) : Refuses s .commandDuringReset
  | window (F : Inst) (h : (s.fifo F).inClearWindow = true) : Refuses s (.clearWindow F)
  | unwritten (F : Inst) (h : ¬ (s.fifo F).Sound) : Refuses s (.unwrittenSlot F)
  | overlap (F : Inst) : Refuses s (.clearOverlap F)
  | secondDriver (p : Port) : Refuses s (.twoDrivers p)
  | notReady (h : s.uart.ready = false) : Refuses s .notInitialised

/-- An outcome continued by something that always answers is refused only as it was itself. -/
theorem onNext_next_refused {α β : Type} {o : Host.Outcome α Fault Refusal} {f : α → β} {q : Refusal}
    (h : onNext o (fun x => .next (f x)) = .refused q) : o = .refused q := by
  obtain h | ⟨x, -, hx⟩ := onNext_eq_refused h
  · exact h
  · cases hx

section
variable {s t : State} {q : Refusal}

/-- The pins, the instances and the UART's readiness are what counts. -/
theorem State.Refuses.of_same (h : t.Refuses q) (hrst : t.rst = s.rst) (hrx : t.rx = s.rx) (htx : t.tx = s.tx)
    (hready : t.uart.ready = s.uart.ready) : s.Refuses q := by
  have hfifo (F : Inst) : t.fifo F = s.fifo F := by cases F <;> assumption
  cases h with
  | inReset h => exact .inReset (hrst ▸ h)
  | rstBesideClr h => exact .rstBesideClr (hrx ▸ htx ▸ h)
  | window F h => exact .window F (hfifo F ▸ h)
  | unwritten F h => exact .unwritten F (hfifo F ▸ h)
  | overlap F => exact .overlap F
  | secondDriver p => exact .secondDriver p
  | notReady h => exact .notReady (hready ▸ h)

theorem exec_refuses {i : Instr} (h : exec i s = .refused q) : s.Refuses q := by
  obtain ⟨rfl, hr⟩ | ⟨F, rfl, -, hw, -⟩ | ⟨F, rfl, -, hsound⟩ := exec_refused h
  · exact .inReset hr
  · exact .window F hw
  · exact .unwritten F hsound

theorem secondDriver_refuses {i : Instr} (h : secondDriver i s = some q) : s.Refuses q := by
  cases i with
  | push F b | pop F | advance | tickAdvance =>
    simp only [Machine.secondDriver, Option.ite_none_right_eq_some, Option.some.injEq] at h
    obtain ⟨-, rfl⟩ := h
    exact .secondDriver _
  | clear F =>
    simp only [Machine.secondDriver] at h
    split at h
    · cases h; exact .secondDriver _
    · split at h <;> cases h
      exact .overlap F
  | wnop | rnop | cnop | dnop | tick => cases h

theorem runLine_refuses {l : Line} (h : runLine l s = .refused q) : s.Refuses q := by
  unfold runLine at h
  split at h
  · next q' hd => cases h; exact secondDriver_refuses hd
  · exact (exec_refuses h).of_same rfl rfl rfl rfl

theorem together_refuses {ls : List Line} (h : together ls s = .refused q) : s.Refuses q := by
  simp only [together] at h
  split at h
  · cases h; exact .secondDriver _
  · split at h <;> cases h
    exact .overlap _

theorem setClr_refuses {F : Inst} {level : Bool} (h : setClr F level s = .refused q) : s.Refuses q := by
  unfold setClr at h
  split at h
  · cases h
  · split at h
    · split at h
      · next q' hd => cases h; exact secondDriver_refuses hd
      · exact exec_refuses (i := .clear F) (onNext_next_refused h)
    · cases h

theorem setRst_refuses {level : Bool} (h : setRst level s = .refused q) : s.Refuses q := by
  unfold setRst at h
  split at h
  · cases h
  · split at h
    · split at h <;> cases h
      next hclr => exact .rstBesideClr (by simpa using hclr)
    · cases h

theorem start_refuses {a : Agent} {ts : List Task} (h : s.start a ts = .refused q) : s.Refuses q := by
  unfold State.start at h
  split at h <;> cases h
  next hready => exact .notReady (by simpa using hready)

theorem interrupt_refuses {k : Irq} (h : interrupt k s = .refused q) : s.Refuses q := by
  cases k with
  | timer => exact exec_refuses (i := .tick) h
  | rda =>
    obtain h | ⟨u, -, h⟩ := onNext_eq_refused h
    · exact start_refuses h
    · split at h <;> cases h
      next hw => exact .window .rx hw
  | thre => exact start_refuses (onNext_next_refused h)
  | err => exact start_refuses h

/-! The parts of the sequences: each is refused only as the command it runs. -/

theorem popToUart_refuses (h : popToUart s = .refused q) : s.Refuses q := by
  obtain h | ⟨u, -, h⟩ := onNext_eq_refused h
  · exact exec_refuses (i := .pop .tx) h
  · split at h <;> cases h

theorem drainByte_refuses {b : Byte} (h : drainByte b s = .refused q) : s.Refuses q :=
  (exec_refuses (i := .push .rx b) (onNext_next_refused h)).of_same rfl rfl rfl rfl

theorem copyStep_refuses {cap : Nat} {got : List Byte} (h : copyStep cap got s = .refused q) : s.Refuses q := by
  unfold copyStep at h
  split at h
  · cases h
  · split at h
    · exact exec_refuses (i := .rnop .rx) (onNext_next_refused h)
    · exact exec_refuses (i := .pop .rx) (onNext_next_refused h)

theorem sendStep_refuses {k : KickPolicy} {b : Byte} {rest : List Byte} (h : sendStep k b rest s = .refused q) :
    s.Refuses q := by
  unfold sendStep at h
  split at h
  · exact exec_refuses (i := .wnop .tx) (onNext_next_refused h)
  · exact exec_refuses (i := .push .tx b) (onNext_next_refused h)

theorem kickStep_refuses (h : kickStep s = .refused q) : s.Refuses q := by
  unfold kickStep at h
  split at h
  · exact popToUart_refuses (onNext_next_refused h)
  · cases h

theorem rekickStep_refuses (h : rekickStep s = .refused q) : s.Refuses q := by
  unfold rekickStep at h
  split at h
  · exact popToUart_refuses (onNext_next_refused h)
  · exact exec_refuses (i := .rnop .tx) (onNext_next_refused h)

theorem taskStep_refuses {k : Task} (h : taskStep k s = .refused q) : s.Refuses q := by
  cases k with
  | drain =>
    simp only [taskStep] at h
    split at h
    · cases h
    · exact drainByte_refuses h
  | copy cap got => exact copyStep_refuses h
  | clearRx => exact exec_refuses (i := .clear .rx) (onNext_next_refused h)
  | send k bs =>
    cases bs with
    | nil => cases h
    | cons b bs => exact sendStep_refuses h
  | kick => exact kickStep_refuses h
  | rekick => exact rekickStep_refuses h
  | pump =>
    simp only [taskStep] at h
    split at h
    · cases h
    · exact popToUart_refuses (onNext_next_refused h)
  | advance => exact exec_refuses (i := .advance) (onNext_next_refused h)
  | discardRx | pollPending | lsrRead | done => cases h

theorem agentStep_refuses {a : Agent} (h : agentStep a s = .refused q) : s.Refuses q := by
  unfold agentStep at h
  split at h
  · cases h
  · split at h
    · cases h; exact .secondDriver _
    · split at h
      · cases h; exact .secondDriver _
      · split at h
        · cases h; exact .overlap _
        · exact taskStep_refuses (onNext_next_refused h)

/-- Every refusal of a step is a listed one. -/
theorem step_refuses (h : step s = .refused q) : s.Refuses q := by
  simp only [step] at h
  split at h
  · cases h
  · split at h
    · exact (runLine_refuses h).of_same rfl rfl rfl rfl
    · exact (together_refuses h).of_same rfl rfl rfl rfl
    · exact (setClr_refuses h).of_same rfl rfl rfl rfl
    · exact (setRst_refuses h).of_same rfl rfl rfl rfl
    · cases h
    · exact (interrupt_refuses h).of_same rfl rfl rfl rfl
    · exact (start_refuses h).of_same rfl rfl rfl rfl
    · exact (agentStep_refuses h).of_same rfl rfl rfl rfl

end

/-- Settles O31: a command's refusals by its guards, and a step's by what it runs. -/
theorem refusalsAreTheListedOnes : Obligations.RefusalsAreTheListedOnes := by
  refine ⟨fun i s q => exec_refused, fun s q h => ?_⟩
  cases step_refuses h with
  | inReset hr => exact .inl ⟨rfl, .inl hr⟩
  | rstBesideClr hclr => exact .inl ⟨rfl, .inr hclr⟩
  | window F hw => exact .inr (.inl ⟨F, rfl, hw⟩)
  | unwritten F hsound => exact .inr (.inr (.inl ⟨F, rfl, hsound⟩))
  | overlap F => exact .inr (.inr (.inr (.inl ⟨F, rfl⟩)))
  | secondDriver p => exact .inr (.inr (.inr (.inr (.inl ⟨p, rfl⟩))))
  | notReady hready => exact .inr (.inr (.inr (.inr (.inr ⟨rfl, hready⟩))))

end Sys2Proof.Machine
end

section
/-! The quiet window counted down by idle edges of both clocks (rule R276). -/

namespace Sys2Proof.Machine

theorem Fifo.writeIdles_window (f : Fifo) (ds : List Draw) :
    (f.writeIdles ds).clr = f.clr ∧ (f.writeIdles ds).wHold = f.wHold - ds.length ∧
      (f.writeIdles ds).rHold = f.rHold := by
  induction ds generalizing f with
  | nil => exact ⟨rfl, rfl, rfl⟩
  | cons d ds ih =>
    obtain ⟨hclr, hw, hr⟩ := ih (f.bookW d f)
    rw [Fifo.writeIdles_cons, hclr, hw, hr, Fifo.bookW_wHold, List.length_cons, Nat.sub_sub, Nat.add_comm 1]
    exact ⟨rfl, rfl, rfl⟩

theorem Fifo.readIdles_window (f : Fifo) (ds : List Draw) :
    (f.readIdles ds).clr = f.clr ∧ (f.readIdles ds).wHold = f.wHold ∧
      (f.readIdles ds).rHold = f.rHold - ds.length := by
  induction ds generalizing f with
  | nil => exact ⟨rfl, rfl, rfl⟩
  | cons d ds ih =>
    obtain ⟨hclr, hw, hr⟩ := ih (f.bookR d f)
    rw [Fifo.readIdles_cons, hclr, hw, hr, Fifo.bookR_rHold, List.length_cons, Nat.sub_sub, Nat.add_comm 1]
    exact ⟨rfl, rfl, rfl⟩

/-- With `clr` low the window stays open exactly as long as one clock has had too few idle edges. -/
theorem Fifo.idles_inClearWindow {f : Fifo} (hclr : f.clr = false) (ds es : List Draw) :
    ((f.writeIdles ds).readIdles es).inClearWindow = true ↔ ds.length < f.wHold ∨ es.length < f.rHold := by
  obtain ⟨hclrW, hwW, hrW⟩ := f.writeIdles_window ds
  obtain ⟨hclrR, hwR, hrR⟩ := (f.writeIdles ds).readIdles_window es
  rw [Fifo.inClearWindow_iff, hclrR, hclrW, hclr, hwR, hwW, hrR, hrW]
  simp [Nat.sub_eq_zero_iff_le]

section
variable {s : State} {F : Inst}

/-- `w` WNOPs and then `r` RNOPs, from a window of `n` edges of each clock. -/
theorem runs_idles_inClearWindow (hr : s.rst = false) (hclr : (s.fifo F).clr = false) {n : Nat}
    (hwHold : (s.fifo F).wHold = n) (hrHold : (s.fifo F).rHold = n) (w r : Nat) :
    ∃ u, Runs (w + r) (s.withLines
        (List.replicate w (lineOf (.wnop F) none) ++ List.replicate r (lineOf (.rnop F) none))) u ∧
      ((u.fifo F).inClearWindow = true ↔ w < n ∨ r < n) := by
  obtain ⟨t, ds, hds, hwrite, ht, htr⟩ :=
    runs_wnops F (List.replicate w none) (List.replicate r (lineOf (.rnop F) none)) hr
  obtain ⟨u, es, hes, hread, hu, -⟩ := runs_rnops F (List.replicate r none) [] htr
  rw [List.length_replicate] at hds hwrite hes hread
  rw [List.map_replicate] at hwrite hread
  rw [List.append_nil] at hread
  refine ⟨_, runs_add hwrite hread, ?_⟩
  rw [State.withLines_fifo, hu, ht, Fifo.idles_inClearWindow hclr, hds, hes, hwHold, hrHold]

theorem setClr_fall (hc : (s.fifo F).clr = true) : setClr F false s = .next (s.setFifo F (s.fifo F).lowerClr) := by
  simp [setClr, hc]

end

/-- Settles O22: the fall of `clr` and CLEAR both leave S + 1 edges of each clock to count. -/
theorem quietWindowAfterClrFalls : Obligations.QuietWindowAfterClrFalls := by
  refine ⟨fun F s rest w r hin hr hclr => ?_, fun F s w r hr hclr => ?_⟩
  · let t := (s.setInputs rest).setFifo F (s.fifo F).lowerClr
    have hfifo : t.fifo F = (s.fifo F).lowerClr := State.fifo_setFifo_same ..
    refine ⟨t, ?_, by rw [hfifo]; rfl, runs_idles_inClearWindow ?_ ?_ ?_ ?_ w r⟩
    · rw [step_clr hin, setClr_fall (by rwa [State.setInputs_fifo]), State.setInputs_fifo]
    · rw [State.setFifo_rst, State.setInputs_rst, hr]
    all_goals rw [hfifo]; rfl
  · have hfifo : (s.clearFifo F).fifo F = (s.fifo F).cleared := State.clearFifo_fifo_same ..
    have hlow : ((s.clearFifo F).fifo F).clr = false := by rw [hfifo, Fifo.cleared_clr, hclr]
    refine ⟨_, execClear_running hr, hlow, runs_idles_inClearWindow ?_ hlow ?_ ?_ w r⟩
    · rw [State.clearFifo_rst, hr]
    all_goals rw [hfifo]; rfl

end Sys2Proof.Machine
end

section
/-! The reset pin and what runs while it is asserted (rules R270, R272, U5). -/

namespace Sys2Proof.Machine

section
variable {s : State} {F : Inst}

/-- A level of the reset pin presented next is set as a level of the pin. -/
theorem step_rst {level : Bool} {rest : List Input} (h : s.inputs = .rst level :: rest) :
    step s = setRst level (s.setInputs rest) := by simp [step, h]

theorem setRst_rise (hr : s.rst = false) (hrx : s.rx.clr = false) (htx : s.tx.clr = false) :
    setRst true s = .next (s.hardReset.setRstPin true) := by simp [setRst, hr, hrx, htx]

theorem setRst_rise_besideClr (hr : s.rst = false) (hclr : s.rx.clr = true ∨ s.tx.clr = true) :
    setRst true s = .refused .commandDuringReset := by simp [setRst, hr, hclr]

theorem setRst_fall (hr : s.rst = true) : setRst false s = .next (s.setRstPin false) := by simp [setRst, hr]

theorem State.hardReset_fifo : s.hardReset.fifo F = Fifo.reset (s.fifo F).wsync.length := by cases F <;> rfl

end

/-- Settles O8: a rise replaces both instances by `Fifo.reset` with their own number of stages. -/
theorem rstRiseResetsBothBlocks : Obligations.RstRiseResetsBothBlocks := by
  refine ⟨fun s rest hin hr hrx htx => ?rise, fun s rest hin hr hclr => ?besideClr, fun s rest hin hr => ?fall⟩
  case rise =>
    refine ⟨_, (step_rst hin).trans (setRst_rise hr hrx htx), rfl, rfl, rfl, rfl, fun F => ?_⟩
    rw [State.setRstPin_fifo, State.hardReset_fifo, State.setInputs_fifo]
    exact ⟨rfl, rfl, rfl, rfl, rfl, List.length_replicate, (Fifo.reset_zeroed _).rsync, rfl, rfl, rfl, rfl,
      fun _ => rfl, rfl⟩
  case besideClr => exact (step_rst hin).trans (setRst_rise_besideClr hr hclr)
  case fall =>
    exact ⟨_, (step_rst hin).trans (setRst_fall hr), rfl, fun F => by rw [State.setRstPin_fifo, State.setInputs_fifo],
      rfl, rfl⟩

/-- Settles O9: every operating command asks `rst` first, and the idle commands answer the state they are given. -/
theorem commandsDuringReset : Obligations.CommandsDuringReset := by
  intro s hr
  exact ⟨fun F b => execPush_inReset b hr, fun F => execPop_inReset hr, fun F => if_pos hr, if_pos hr, if_pos hr,
    if_pos hr, fun F => if_pos hr, fun F => if_pos hr, fun F => rfl, rfl⟩

/-- Settles O44: with stages in `wsync` a PUSH leaves `empty`, and it adds one to the bytes held. -/
theorem emptyLagsBehindAPush : Obligations.EmptyLagsBehindAPush := by
  let b : Byte := 0x48#8
  let f := Fifo.reset Config.syncStages
  have hz : f.Zeroed := Fifo.reset_zeroed _
  let pre := (State.reset.withLines []).setLineDraw none
  have hpush : exec (.push .rx b) pre = .next (pre.edgeW .rx (f.store b)) := execPush_room rfl rfl hz.full
  have hdec : decode (lineOf (.push .rx b) none).word = .push .rx b := decode_encode (.push .rx b)
  refine ⟨_, runs_line (by rw [hdec]; rfl) (by rw [hdec]; exact hpush) (runs_zero.2 rfl), ?_, ?_⟩
  · exact (Fifo.bookW_empty f (f.store b) pre.draw rfl rfl nofun).trans hz.empty
  · exact ((Fifo.reset_sound _).occTrue_bookW_store _ b hz.full).trans (by rw [hz.occTrue])

end Sys2Proof.Machine
end
